-- ==== Sys2Proof/Word.lean ====
section
/-! DEFINITION. The word types of the block: every data value is unsigned (spec/00_scope.md R13). -/

namespace Sys2Proof

/-- A byte of the padded stream or of input memory. -/
abbrev Byte := BitVec 8

/-- A 32-bit word of the datapath (R8). -/
abbrev Word := BitVec 32

/-- A 64-bit host-visible register (R9). -/
abbrev DWord := BitVec 64

/-- One host transaction, `{control[3:0], data[63:0]}` (spec/30_encoding.md R81). -/
abbrev BusWord := BitVec 68

end Sys2Proof
end

