-- ==== Sys2Proof/Config.lean ====
section
/-! DEFINITION. What an instance of the block fixes (spec/00_scope.md R10 to R12), and the free values. -/

namespace Sys2Proof

/-- LEN_FIELD_MODE (R10): all 8 bytes of the length field, or its low 32 bits with the rest zero. -/
inductive LenMode where
  | full64
  | low32
  deriving DecidableEq, Repr

/-- The parameters of one instance. They are fixed for it and reported in CAPS (spec/10_state.md R38). -/
structure Params where
  /-- LEN_FIELD_MODE (R10). -/
  lenMode : LenMode
  /-- STRICT_LENGTH (R11). -/
  strict : Bool
  /-- ADDR_W, the width in bits of an input address, 1 to 64 (R12). -/
  addrW : Nat
  deriving DecidableEq, Repr

/-- The spec's own defaults (R10, R11, R12): FULL64, 0, 64. -/
def Params.default : Params := { lenMode := .full64, strict := false, addrW := 64 }

/-- ADDR_W is an integer from 1 to 64 (R12). -/
abbrev Params.wf (p : Params) : Prop := 1 ≤ p.addrW ∧ p.addrW ≤ 64

/-- FREE VALUE (log entry 4): the n-th value that the spec leaves unspecified. It has no body, so a claim about a
state that holds one is a claim for every value. A register of w bits takes `BitVec.ofNat w` of it. -/
opaque Config.unspecified : Nat → Nat

end Sys2Proof
end

