-- ==== Sys2Proof/Machine/State.lean ====
section
/-! DEFINITION. The state of the block, of its register port and of the outside world it reads, as plain data; the
faults and the refusals; the machine right after reset. INVENTORY.md lists every field with its rule. -/

namespace Sys2Proof.Machine

/-- Four 32-bit words: a chaining value H[0..3] (R20), or the accumulators A, B, C, D in W[0..3] (R21). -/
structure Quad where
  /-- Word 0: A. -/
  a : Word
  /-- Word 1: B. -/
  b : Word
  /-- Word 2: C. -/
  c : Word
  /-- Word 3: D. -/
  d : Word
  deriving DecidableEq, Repr

/-- The sixteen message words of a block, M[0..15] (R27). -/
abbrev Block := Vector Word 16

/-- The stored fields of STATUS (spec/10_state.md R32). -/
structure Status where
  busy : Bool
  done : Bool
  err : Bool
  overrun : Bool
  errCode : BitVec 4
  deriving DecidableEq, Repr

/-- `size` bytes of input memory from address `base`. -/
structure Region where
  base : Nat
  size : Nat
  deriving DecidableEq, Repr

/-- One turn of the total order of spec/20_memory.md R74, and what else can happen from outside. -/
inductive Turn where
  /-- The engine takes the step of its phase (R170). -/
  | engine
  /-- The host performs one transaction (R210). -/
  | host (word : BusWord)
  /-- The engine reads message byte `i` before the LOAD of its block (R64). -/
  | read (i : Nat)
  /-- The host writes a byte of input memory (R61, R283). -/
  | place (addr : Nat) (byte : Byte)
  /-- The host's memory no longer admits a read at this address (R63). -/
  | withdraw (addr : Nat)
  /-- Hardware reset (R280). -/
  | reset
  deriving DecidableEq, Repr

/-- The state. -/
structure State where
  /-- The instance's parameters (R10 to R12). No step changes them. -/
  params : Params
  /-- STATUS (R32). -/
  status : Status
  /-- SRC_ADDR (R37). -/
  srcAddr : DWord
  /-- LENGTH (R37). -/
  length : DWord
  /-- DIGEST_LO (R39). -/
  digestLo : DWord
  /-- DIGEST_HI (R39). -/
  digestHi : DWord
  /-- PHASE in its 3-bit encoding (R23, R86). -/
  phase : BitVec 3
  /-- The round counter (R24). -/
  j : BitVec 6
  /-- The index of the current block (R25). -/
  blk : Nat
  /-- NBLK, the number of blocks of the digest (R25). -/
  nblk : Nat
  /-- LSRC, the latched source address (R26). -/
  lsrc : DWord
  /-- LLEN, the latched length (R26). -/
  llen : DWord
  /-- The chaining registers H[0..3] (R20). -/
  h : Quad
  /-- The working registers W[0..3] (R21). -/
  w : Quad
  /-- The block buffer M[0..15] (R27). -/
  m : Block
  /-- The port's read-data lines (R81): the value the latest register read returned. -/
  rdata : DWord
  /-- The input memory: the bytes at which a read is admitted, by rising address (R60, R63). -/
  mem : List Host.Cell
  /-- The regions of input memory whose reads have side effects (R62). No step changes them. -/
  devices : List Region
  /-- The message bytes, by rising index, that the engine has read and no LOAD has used yet (R64). -/
  taken : List Host.Cell
  /-- The coming turns of the total order (R74). When none is left the engine moves. -/
  order : List Turn
  /-- The model's own field: how many free values have been used (log entry 4). -/
  draws : Nat
  deriving DecidableEq, Repr

/-- What stops the machine. Both are final: no step follows one (R256). -/
inductive Fault where
  /-- Raised by PHASE_LOAD and by an early input read: the read of this address is not admitted, because it is at or
  above 2^ADDR_W or the host's memory does not admit it (R63, R256). Safe: the machine stops and gives no digest. -/
  | inputUnreadable (addr : Nat)
  /-- Raised by an engine turn: PHASE holds 101, 110 or 111 (R86). Safe: it is never reached. -/
  | illegalPhase (p : BitVec 3)
  deriving DecidableEq, Repr

/-- What the model does not admit. -/
inductive Refusal where
  /-- Raised by exec for an operation that has no meaning yet. Safe: the machine stops. -/
  | notModelled (mnemonic : String)
  /-- Raised by WR_CMD and DIGEST at the launch of a digest whose message overlaps input memory with read side
  effects: "outside the contract, and a Lean model refuses such a launch" (R62). Safe: the machine stops. -/
  | sideEffectInput (addr : Nat) (len : Nat)
  deriving DecidableEq, Repr

/-- STATUS = 0. -/
def Status.zero : Status := { busy := false, done := false, err := false, overrun := false, errCode := 0#4 }

def Quad.zero : Quad := { a := 0#32, b := 0#32, c := 0#32, d := 0#32 }

/-- The machine right after reset (R50, R280), on an instance with the spec's default parameters.
DESIGN CHOICE (log entry 3, unsafe): h, w, m, j, blk, nblk, lsrc and llen, which the spec leaves unspecified, are 0.
DESIGN CHOICE (log entries 1, 5, 6, 8): nothing in input memory, no turns to come, 0 on the read-data lines. -/
def State.reset : State where
  params := Params.default
  status := Status.zero
  srcAddr := 0#64
  length := 0#64
  digestLo := 0#64
  digestHi := 0#64
  phase := 0b000#3
  j := 0#6
  blk := 0
  nblk := 0
  lsrc := 0#64
  llen := 0#64
  h := Quad.zero
  w := Quad.zero
  m := Vector.replicate 16 0#32
  rdata := 0#64
  mem := []
  devices := []
  taken := []
  order := []
  draws := 0

end Sys2Proof.Machine
end

