-- ==== Sys2Proof/Machine/Flags.lean ====
section
/-! DEFINITION. How the fields of STATUS change (spec/10_state.md R32 to R36), and the words that reads of STATUS and
CAPS return. The block has no other flag: the round operations write none (R44). -/

namespace Sys2Proof.Machine

/-- ERR_CODE of BAD_COMMAND (spec/60_exceptions.md R250). -/
def badCommand : BitVec 4 := 0x1#4

/-- ERR_CODE of LENGTH_OVERFLOW (R250). -/
def lengthOverflow : BitVec 4 := 0x2#4

/-- START sets BUSY and clears every other field (spec/43_sequencer.md R171). -/
def Status.started : Status := { busy := true, done := false, err := false, overrun := false, errCode := 0#4 }

/-- A rejection sets ERR and ERR_CODE and clears DONE; BUSY and OVERRUN keep their values (R252). -/
def Status.rejected (code : BitVec 4) (st : Status) : Status := { st with err := true, errCode := code, done := false }

/-- A command lost while busy sets OVERRUN and nothing else (R255). -/
def Status.overran (st : Status) : Status := { st with overrun := true }

/-- FINAL clears BUSY and sets DONE; OVERRUN is left (R36, R176). -/
def Status.finished (st : Status) : Status := { st with busy := false, done := true }

/-- The value a read of STATUS returns, most significant field first (spec/45_host_interface.md R213). -/
def Status.word (st : Status) : DWord :=
  0#56 ++ st.errCode ++ BitVec.ofBool st.overrun ++ BitVec.ofBool st.err ++ BitVec.ofBool st.done ++ BitVec.ofBool st.busy

/-- LEN_MODE, CAPS bit 0 (R38). -/
def lenModeBit : LenMode → Bool
  | .full64 => false
  | .low32 => true

/-- The constant that a read of CAPS returns (R38, R226). -/
def capsWord (p : Params) : DWord :=
  0#48 ++ BitVec.ofNat 8 p.addrW ++ 0#6 ++ BitVec.ofBool p.strict ++ BitVec.ofBool (lenModeBit p.lenMode)

end Sys2Proof.Machine
end

