-- ==== Sys2Proof/Syntax.lean ====
section
/-! DEFINITION. The operations of the block: one constructor per row of spec/opcode_table.json (29 rows). -/

namespace Sys2Proof

/-- The operations, in the four formats of spec/30_encoding.md section 1. A bus read keeps the 64 data bits of its
transaction, which the block ignores (R81), so that no bit of an encoding is lost. -/
inductive Instr where
  -- format BUS (R81): host transactions
  | rdCmd (data : DWord)
  | rdStatus (data : DWord)
  | rdSrcAddr (data : DWord)
  | rdLength (data : DWord)
  | rdDigestLo (data : DWord)
  | rdDigestHi (data : DWord)
  | rdDigest64 (data : DWord)
  | rdCaps (data : DWord)
  | wrCmd (data : DWord)
  | wrStatus (data : DWord)
  | wrSrcAddr (data : DWord)
  | wrLength (data : DWord)
  | wrDigestLo (data : DWord)
  | wrDigestHi (data : DWord)
  | wrDigest64 (data : DWord)
  | wrCaps (data : DWord)
  -- format CMD (R84): values written to CMD
  | nop
  | digest
  | softReset
  | reservedCmd (v : DWord)
  -- format ROUND (R82): the round operation selected by j[5:4], at position j[3:0]
  | rndF (pos : BitVec 4)
  | rndG (pos : BitVec 4)
  | rndH (pos : BitVec 4)
  | rndI (pos : BitVec 4)
  -- format PHASE (R86): the sequencer's steps
  | phaseIdle
  | phaseLoad
  | phaseRound
  | phaseAccum
  | phaseFinal
  deriving DecidableEq, Repr

/-- An encoded value of one of the four formats (R80 to R86). -/
inductive Encoded where
  | bus (word : BusWord)
  | cmd (v : DWord)
  | round (j : BitVec 6)
  | phase (p : BitVec 3)
  deriving DecidableEq, Repr

end Sys2Proof
end

