-- ==== Sys2Proof/WellFormed.lean ====
section
/-! DEFINITION. Which terms of Instr stand for an encoding. The types bound every field but one: a RESERVED_CMD
carries a value that is none of the three commands (spec/30_encoding.md R84, R85). -/

namespace Sys2Proof

/-- A reserved command is any CMD value with `v[63:8] != 0`, or with `v[7:0]` from 0x03 to 0xFF (R85). -/
def reservedValue (v : DWord) : Bool :=
  v.extractLsb' 8 56 != 0 || decide (0x03 ≤ (v.extractLsb' 0 8).toNat)

/-- The check on one operation. -/
def Instr.wf : Instr → Bool
  | .reservedCmd v => reservedValue v
  | .rdCmd _ | .rdStatus _ | .rdSrcAddr _ | .rdLength _ | .rdDigestLo _ | .rdDigestHi _ | .rdDigest64 _ | .rdCaps _
  | .wrCmd _ | .wrStatus _ | .wrSrcAddr _ | .wrLength _ | .wrDigestLo _ | .wrDigestHi _ | .wrDigest64 _ | .wrCaps _
  | .nop | .digest | .softReset
  | .rndF _ | .rndG _ | .rndH _ | .rndI _
  | .phaseIdle | .phaseLoad | .phaseRound | .phaseAccum | .phaseFinal => true

end Sys2Proof
end

