-- ==== Sys2Proof/Decode.lean ====
section
/-! DEFINITION. The four decoders, total, each written from its format in spec/30_encoding.md, then the encoder. -/

namespace Sys2Proof

/-- Why a value has no operation: it is one of the PHASE encodings 101, 110, 111 (R86). Every value of the other
three formats decodes. -/
inductive Reject where
  | reservedPhase (p : BitVec 3)
  deriving DecidableEq, Repr

/-! ### Format BUS (R81) -/

/-- `{control[3:0], data[63:0]}` as one 68-bit value. -/
def busWord (control : BitVec 4) (data : DWord) : BusWord := control ++ data

def busControl (w : BusWord) : BitVec 4 := w.extractLsb' 64 4

def busData (w : BusWord) : DWord := w.extractLsb' 0 64

/-- A read of the register with index IDX (R88). -/
def decodeRead (idx : BitVec 3) (data : DWord) : Instr :=
  match idx.toNat with
  | 0 => .rdCmd data
  | 1 => .rdStatus data
  | 2 => .rdSrcAddr data
  | 3 => .rdLength data
  | 4 => .rdDigestLo data
  | 5 => .rdDigestHi data
  | 6 => .rdDigest64 data
  | _ => .rdCaps data

/-- A write to the register with index IDX (R88). -/
def decodeWrite (idx : BitVec 3) (data : DWord) : Instr :=
  match idx.toNat with
  | 0 => .wrCmd data
  | 1 => .wrStatus data
  | 2 => .wrSrcAddr data
  | 3 => .wrLength data
  | 4 => .wrDigestLo data
  | 5 => .wrDigestHi data
  | 6 => .wrDigest64 data
  | _ => .wrCaps data

/-- WE is control[3], IDX is control[2:0] (R81). -/
def decodeBus (w : BusWord) : Instr :=
  let idx := (busControl w).extractLsb' 0 3
  if (busControl w).getLsbD 3 then decodeWrite idx (busData w) else decodeRead idx (busData w)

/-! ### Format CMD (R84, R85) -/

def decodeCmd (v : DWord) : Instr :=
  if v = 0x0000000000000000#64 then .nop
  else if v = 0x0000000000000001#64 then .digest
  else if v = 0x0000000000000002#64 then .softReset
  else .reservedCmd v

/-! ### Format ROUND (R82) -/

/-- SEL, `j[5:4]`. -/
def roundSel (j : BitVec 6) : BitVec 2 := j.extractLsb' 4 2

/-- POS, `j[3:0]`. -/
def roundPos (j : BitVec 6) : BitVec 4 := j.extractLsb' 0 4

/-- The round index `{SEL, POS}`. -/
def roundIndex (sel : BitVec 2) (pos : BitVec 4) : BitVec 6 := sel ++ pos

def decodeRound (j : BitVec 6) : Instr :=
  match (roundSel j).toNat with
  | 0 => .rndF (roundPos j)
  | 1 => .rndG (roundPos j)
  | 2 => .rndH (roundPos j)
  | _ => .rndI (roundPos j)

/-! ### Format PHASE (R86) -/

def decodePhase (p : BitVec 3) : Except Reject Instr :=
  match p.toNat with
  | 0 => .ok .phaseIdle
  | 1 => .ok .phaseLoad
  | 2 => .ok .phaseRound
  | 3 => .ok .phaseAccum
  | 4 => .ok .phaseFinal
  | _ => .error (.reservedPhase p)

/-- The decoder of an encoded value of any format. -/
def decode : Encoded → Except Reject Instr
  | .bus w => .ok (decodeBus w)
  | .cmd v => .ok (decodeCmd v)
  | .round j => .ok (decodeRound j)
  | .phase p => decodePhase p

/-! ### The encoder, from the map of R88 -/

def encode : Instr → Encoded
  | .rdCmd d => .bus (busWord 0x0#4 d)
  | .rdStatus d => .bus (busWord 0x1#4 d)
  | .rdSrcAddr d => .bus (busWord 0x2#4 d)
  | .rdLength d => .bus (busWord 0x3#4 d)
  | .rdDigestLo d => .bus (busWord 0x4#4 d)
  | .rdDigestHi d => .bus (busWord 0x5#4 d)
  | .rdDigest64 d => .bus (busWord 0x6#4 d)
  | .rdCaps d => .bus (busWord 0x7#4 d)
  | .wrCmd d => .bus (busWord 0x8#4 d)
  | .wrStatus d => .bus (busWord 0x9#4 d)
  | .wrSrcAddr d => .bus (busWord 0xA#4 d)
  | .wrLength d => .bus (busWord 0xB#4 d)
  | .wrDigestLo d => .bus (busWord 0xC#4 d)
  | .wrDigestHi d => .bus (busWord 0xD#4 d)
  | .wrDigest64 d => .bus (busWord 0xE#4 d)
  | .wrCaps d => .bus (busWord 0xF#4 d)
  | .nop => .cmd 0x0000000000000000#64
  | .digest => .cmd 0x0000000000000001#64
  | .softReset => .cmd 0x0000000000000002#64
  | .reservedCmd v => .cmd v
  | .rndF pos => .round (roundIndex 0b00#2 pos)
  | .rndG pos => .round (roundIndex 0b01#2 pos)
  | .rndH pos => .round (roundIndex 0b10#2 pos)
  | .rndI pos => .round (roundIndex 0b11#2 pos)
  | .phaseIdle => .phase 0b000#3
  | .phaseLoad => .phase 0b001#3
  | .phaseRound => .phase 0b010#3
  | .phaseAccum => .phase 0b011#3
  | .phaseFinal => .phase 0b100#3

/-! ### The pseudo-instructions that expand to transactions (R90) -/

/-- `HASH <addr>, <len>`: `WR SRC_ADDR`, then `WR LENGTH`, then `WR CMD, 0x1`. -/
def hashTransactions (addr len : DWord) : List BusWord :=
  [busWord 0xA#4 addr, busWord 0xB#4 len, busWord 0x8#4 0x0000000000000001#64]

/-- `NOP`: `WR CMD, 0x0`. -/
def nopTransaction : BusWord := busWord 0x8#4 0x0000000000000000#64

/-- `DIGEST`: `WR CMD, 0x1`. -/
def digestTransaction : BusWord := busWord 0x8#4 0x0000000000000001#64

/-- `SOFTRESET`: `WR CMD, 0x2`. -/
def softResetTransaction : BusWord := busWord 0x8#4 0x0000000000000002#64

/-! ### Words numbered as spec/opcode_table.json numbers them (log entry 12) -/

/-- A transaction whose control bits are bits 3..0 and whose data bits count on from bit 4, as the table's rows of
format BUS number them. -/
def tableBus (w : Nat) : BusWord := busWord (BitVec.ofNat 4 w) (BitVec.ofNat 64 (w / 16))

/-- The encoded value that `nbits` bits of the table with the value `w` stand for. A width says the format: 4, 68 or
72 bits BUS, 64 bits CMD, 6 bits ROUND, 3 bits PHASE. DESIGN CHOICE (log entry 12): one byte holds the four control
bits of a BUS row when its value is below 16, else the six bits of a ROUND row. -/
def tableWord (nbits w : Nat) : Option Encoded :=
  if nbits = 3 then (if w < 8 then some (.phase (BitVec.ofNat 3 w)) else none)
  else if nbits = 4 then (if w < 16 then some (.bus (tableBus w)) else none)
  else if nbits = 6 then (if w < 64 then some (.round (BitVec.ofNat 6 w)) else none)
  else if nbits = 8 then
    (if w < 16 then some (.bus (tableBus w)) else if w < 64 then some (.round (BitVec.ofNat 6 w)) else none)
  else if nbits = 64 then (if w < 2 ^ 64 then some (.cmd (BitVec.ofNat 64 w)) else none)
  else if nbits = 68 ∨ nbits = 72 then (if w < 2 ^ 68 then some (.bus (tableBus w)) else none)
  else none

/-- The operation that the decoder reads from a word of the table; none where it refuses. -/
def decodeTableWord (nbits w : Nat) : Option Instr :=
  match tableWord nbits w with
  | none => none
  | some e =>
    match decode e with
    | .ok i => some i
    | .error _ => none

end Sys2Proof
end

