-- ==== Sys2Proof/Machine/Operands.lean ====
section
/-! DEFINITION. The operands and the datapath functions, all pure: the padded stream (spec/40_padding.md), the
unpacker (spec/41_unpack.md), the operands of a round and the round step (spec/42_rounds.md), packing and the fold
(spec/43_sequencer.md R176, spec/44_fold.md). -/

namespace Sys2Proof.Machine

/-! ### Byte order (spec/00_scope.md R16) -/

/-- Byte i of the little-endian encoding of a 64-bit value. -/
def leByte (v : DWord) (i : Nat) : Byte := v.extractLsb' (8 * i) 8

/-- The 32-bit word whose least significant byte is b0. -/
def leWord (b0 b1 b2 b3 : Byte) : Word := b3 ++ b2 ++ b1 ++ b0

/-! ### Padding and the length field (R100 to R106) -/

/-- `padded_len(L)` (R100), exact. -/
def paddedLen (len : Nat) : Nat := (len + 72) / 64 * 64

/-- `NBLK(L)` (R100), exact. -/
def blockCount (len : Nat) : Nat := (len + 8) / 64 + 1

/-- The 64-bit value that the length field encodes: the bit count mod 2^64 (R105), or its low 32 bits (R106). -/
def lenFieldValue (mode : LenMode) (len : Nat) : DWord :=
  match mode with
  | .full64 => BitVec.ofNat 64 (8 * len)
  | .low32 => (BitVec.ofNat 32 (8 * len)).setWidth 64

/-- Byte i of the padded stream of a message of `len` bytes, for an i past the message: the terminator (R103), the
zero bytes (R104), the length field (R105, R106). -/
def padByte (mode : LenMode) (len i : Nat) : Byte :=
  if i = len then 0x80#8
  else if i < paddedLen len - 8 then 0x00#8
  else leByte (lenFieldValue mode len) (i - (paddedLen len - 8))

/-- The largest length that the length field holds without wrapping (R231, R253). -/
def lengthLimit (mode : LenMode) : Nat :=
  match mode with
  | .full64 => 2 ^ 61 - 1
  | .low32 => 2 ^ 29 - 1

/-! ### The unpacker (R120) -/

/-- `UNPACK(BLK)[k]` is made of bytes 4k to 4k + 3 of the block, the first the least significant. -/
def unpack (bytes : List Byte) : Block :=
  Vector.ofFn fun k : Fin 16 =>
    leWord (bytes.getD (4 * k.val) 0#8) (bytes.getD (4 * k.val + 1) 0#8) (bytes.getD (4 * k.val + 2) 0#8)
      (bytes.getD (4 * k.val + 3) 0#8)

/-! ### The operands of round j (spec/30_encoding.md R83) -/

/-- `g(j) = j`, for rounds 0 to 15 (R135). -/
def indexF (j : BitVec 6) : BitVec 4 := BitVec.ofNat 4 j.toNat

/-- `g(j) = (5j + 1) mod 16`, for rounds 16 to 31 (R135). -/
def indexG (j : BitVec 6) : BitVec 4 := BitVec.ofNat 4 (5 * j.toNat + 1)

/-- `g(j) = (3j + 5) mod 16`, for rounds 32 to 47 (R135). -/
def indexH (j : BitVec 6) : BitVec 4 := BitVec.ofNat 4 (3 * j.toNat + 5)

/-- `g(j) = 7j mod 16`, for rounds 48 to 63 (R135). -/
def indexI (j : BitVec 6) : BitVec 4 := BitVec.ofNat 4 (7 * j.toNat)

/-- The message operand M[g]. -/
def blockWord (m : Block) (g : BitVec 4) : Word := m[g.toNat]'(g.isLt)

/-! ### The nonlinear functions and the round step (R130 to R136, R150) -/

/-- Fn (R130). -/
def mixF (b c d : Word) : Word := (b &&& c) ||| ((~~~b) &&& d)

/-- Gn (R131). -/
def mixG (b c d : Word) : Word := (d &&& b) ||| ((~~~d) &&& c)

/-- Hf (R132). -/
def mixH (b c d : Word) : Word := b ^^^ c ^^^ d

/-- In (R133). -/
def mixI (b c d : Word) : Word := c ^^^ (b ||| (~~~d))

/-- The 32-bit left rotation (R14): `(x << n) | (x >> (32 - n))`, which is x for n = 0. -/
def rotl32 (x : Word) (n : Nat) : Word := (x <<< n) ||| (x >>> (32 - n))

/-- ROUNDSTEP(j) (R150) on the four accumulators, with the value f of the mixing function and the message word. -/
def roundQuad (f : Word) (msg : Word) (j : BitVec 6) (q : Quad) : Quad :=
  { a := q.d, b := q.b + rotl32 (f + q.a + kRom j + msg) (rRom j), c := q.b, d := q.c }

/-- The round step of rounds 0 to 15 (R151). -/
def roundF (j : BitVec 6) (m : Block) (q : Quad) : Quad := roundQuad (mixF q.b q.c q.d) (blockWord m (indexF j)) j q

/-- The round step of rounds 16 to 31 (R152). -/
def roundG (j : BitVec 6) (m : Block) (q : Quad) : Quad := roundQuad (mixG q.b q.c q.d) (blockWord m (indexG j)) j q

/-- The round step of rounds 32 to 47 (R153). -/
def roundH (j : BitVec 6) (m : Block) (q : Quad) : Quad := roundQuad (mixH q.b q.c q.d) (blockWord m (indexH j)) j q

/-- The round step of rounds 48 to 63 (R154). -/
def roundI (j : BitVec 6) (m : Block) (q : Quad) : Quad := roundQuad (mixI q.b q.c q.d) (blockWord m (indexI j)) j q

/-- The round step of round j, selected by `SEL = j[5:4]` (R134, R173). -/
def roundAt (j : BitVec 6) (m : Block) (q : Quad) : Quad :=
  match (roundSel j).toNat with
  | 0 => roundF j m q
  | 1 => roundG j m q
  | 2 => roundH j m q
  | _ => roundI j m q

/-! ### Accumulation, packing and the fold (R174, R176, R200) -/

/-- The four wrapping sums of ACCUM (R174). -/
def addQuad (x y : Quad) : Quad := { a := x.a + y.a, b := x.b + y.b, c := x.c + y.c, d := x.d + y.d }

/-- `{H[1], H[0]}` (R176). -/
def packLo (q : Quad) : DWord := q.b ++ q.a

/-- `{H[3], H[2]}` (R176). -/
def packHi (q : Quad) : DWord := q.d ++ q.c

/-- `FOLD(LO, HI) = LO ^ HI` (R200). -/
def fold (lo hi : DWord) : DWord := lo ^^^ hi

end Sys2Proof.Machine
end

