-- ==== Sys2Proof/Machine/Ops.lean ====
section
/-! DEFINITION. The named operations on the state: input memory, the input reads of a digest, the reset action, the
reports of a condition (spec/60_exceptions.md R252, R255: this block's way of taking an exception), START, and the
effect of each sequencer step. -/

namespace Sys2Proof.Machine

/-! ### Lists of cells: input memory and the message bytes already read -/

/-- The one canonical form: addresses strictly rising. An unlisted address reads as no value, so no entry can equal
what an unlisted address reads as (log entry 6). -/
abbrev Memory.wf (l : List Host.Cell) : Prop := l.Pairwise fun x y => x.1 < y.1

/-- The byte at a key, none where no byte is listed. -/
def Memory.read : List Host.Cell → Nat → Option Byte
  | [], _ => none
  | (b, u) :: rest, a => if a = b then some u else Memory.read rest a

/-- Put a byte at a key, in its place in the order. -/
def Memory.write : List Host.Cell → Nat → Byte → List Host.Cell
  | [], a, v => [(a, v)]
  | (b, u) :: rest, a, v =>
    if a < b then (a, v) :: (b, u) :: rest
    else if a = b then (a, v) :: rest
    else (b, u) :: Memory.write rest a v

/-- Take the byte at a key away. -/
def Memory.erase (l : List Host.Cell) (a : Nat) : List Host.Cell := l.filter fun c => decide (c.1 ≠ a)

/-- Keep the bytes at keys from `lo` on. -/
def Memory.keepFrom (l : List Host.Cell) (lo : Nat) : List Host.Cell := l.filter fun c => decide (lo ≤ c.1)

/-- The model's read of one byte of input memory, without effect (R62). -/
def State.memByte (s : State) (a : Nat) : Option Byte := Memory.read s.mem a

/-- `MemRead(addr, 1)`: admitted only if `addr < 2^ADDR_W` and the host's memory admits it (R63). -/
def State.memRead (s : State) (a : Nat) : Except Fault Byte :=
  if a < 2 ^ s.params.addrW then
    match s.memByte a with
    | some b => .ok b
    | none => .error (.inputUnreadable a)
  else .error (.inputUnreadable a)

/-! ### The input reads of a digest (R60, R64, R102, R107) -/

/-- The address LSRC + i of message byte i, exact: addresses do not wrap (R60, R63). -/
def State.msgAddr (s : State) (i : Nat) : Nat := s.lsrc.toNat + i

/-- Message byte i: the value the engine read early (R64), else the value its memory holds now. -/
def State.msgByte (s : State) (i : Nat) : Except Fault Byte :=
  match Memory.read s.taken i with
  | some b => .ok b
  | none => s.memRead (s.msgAddr i)

/-- Byte i of the padded stream P (R101). -/
def State.streamByte (s : State) (i : Nat) : Except Fault Byte :=
  if i < s.llen.toNat then s.msgByte i else .ok (padByte s.params.lenMode s.llen.toNat i)

/-- `n` bytes of the padded stream from byte i on, in rising order: the first read that is not admitted is the fault
(log entry 7). -/
def State.streamBytes (s : State) (i : Nat) : Nat → Except Fault (List Byte)
  | 0 => .ok []
  | n + 1 =>
    match s.streamByte i with
    | .error f => .error f
    | .ok b =>
      match State.streamBytes s (i + 1) n with
      | .error f => .error f
      | .ok bs => .ok (b :: bs)

/-- The index of the next block whose LOAD is still to come. Any PHASE but LOAD counts as one after the LOAD of block
blk, the three values that R86 calls never reached too (log entry 11). -/
def State.nextLoad (s : State) : Nat := if s.phase = 0b001#3 then s.blk else s.blk + 1

/-- Message byte i may be read now: a digest is in progress, the byte belongs to it and to a block whose LOAD is to
come, and it has not been read (R64: after START, no later than that LOAD, exactly once). -/
def State.readDue (s : State) (i : Nat) : Bool :=
  s.status.busy && decide (i < s.llen.toNat) && decide (s.nextLoad ≤ i / 64) && (Memory.read s.taken i).isNone

/-- The engine has read message byte i and keeps it for the LOAD of its block. -/
def State.take (s : State) (i : Nat) (b : Byte) : State := { s with taken := Memory.write s.taken i b }

/-! ### The outside world -/

/-- The turn at the head of the order has come. -/
def State.turnsLeft (s : State) (rest : List Turn) : State := { s with order := rest }

/-- The host writes a byte of input memory. -/
def State.place (s : State) (a : Nat) (v : Byte) : State := { s with mem := Memory.write s.mem a v }

/-- The host's memory stops admitting a read at an address. -/
def State.withdraw (s : State) (a : Nat) : State := { s with mem := Memory.erase s.mem a }

/-- Whether a region holds one of the `n` addresses from `lo` on. -/
def Region.meets (r : Region) (lo n : Nat) : Bool :=
  decide (max r.base lo < min (r.base + r.size) (lo + n))

/-! ### The register port -/

/-- A read returns a value on the read-data lines (R81) and changes nothing else (R71). -/
def State.answer (s : State) (v : DWord) : State := { s with rdata := v }

def State.setSrcAddr (s : State) (v : DWord) : State := { s with srcAddr := v }

def State.setLength (s : State) (v : DWord) : State := { s with length := v }

/-! ### Conditions (R252, R255) -/

/-- `reject(code)`: the three writes to STATUS, and nothing else (R252). -/
def State.reject (s : State) (code : BitVec 4) : State := { s with status := s.status.rejected code }

/-- A command written while busy is lost (R255). -/
def State.overrun (s : State) : State := { s with status := s.status.overran }

/-! ### Reset and START -/

/-- The n-th free value that the next reset action leaves, counted from the values used so far (log entry 4). -/
def State.free (s : State) (n : Nat) : Nat := Config.unspecified (s.draws + n)

/-- Four free words. -/
def State.freeQuad (s : State) (n : Nat) : Quad :=
  { a := BitVec.ofNat 32 (s.free n), b := BitVec.ofNat 32 (s.free (n + 1)), c := BitVec.ofNat 32 (s.free (n + 2)),
    d := BitVec.ofNat 32 (s.free (n + 3)) }

/-- Sixteen free words. -/
def State.freeBlock (s : State) (n : Nat) : Block := Vector.ofFn fun k : Fin 16 => BitVec.ofNat 32 (s.free (n + k.val))

/-- The reset action (R280). What it leaves unspecified is free: 29 free values. -/
def State.resetAction (s : State) : State :=
  { s with
    phase := 0b000#3, status := Status.zero, srcAddr := 0#64, length := 0#64, digestLo := 0#64, digestHi := 0#64
    h := s.freeQuad 0, w := s.freeQuad 4, m := s.freeBlock 8, j := BitVec.ofNat 6 (s.free 24)
    blk := s.free 25, nblk := s.free 26, lsrc := BitVec.ofNat 64 (s.free 27), llen := BitVec.ofNat 64 (s.free 28)
    taken := [], draws := s.draws + 29 }

/-- START (R171). No byte of the new digest has been read. -/
def State.start (s : State) : State :=
  { s with
    lsrc := s.srcAddr, llen := s.length, nblk := blockCount s.length.toNat, blk := 0, h := iv
    status := Status.started, phase := 0b001#3, taken := [] }

/-- The message of the next launch overlaps a region whose reads have side effects. -/
def State.sideEffects (s : State) : Bool := s.devices.any fun r => r.meets s.srcAddr.toNat s.length.toNat

/-- START of a digest whose input the contract admits. Input memory with read side effects is outside it: "a Lean
model refuses such a launch" (R62, U9). -/
def State.launch (s : State) : Host.Outcome State Fault Refusal :=
  if s.sideEffects then
    .refused (.sideEffectInput s.srcAddr.toNat s.length.toNat)
  else .next s.start

/-- A DIGEST written while idle: the length check, then START (R231, R253). -/
def State.digestIdle (s : State) : Host.Outcome State Fault Refusal :=
  if s.params.strict = true ∧ lengthLimit s.params.lenMode < s.length.toNat then .next (s.reject lengthOverflow)
  else s.launch

/-! ### The sequencer's steps -/

/-- LOAD with the 64 bytes of the block (R121, R172). The bytes of this block that were read early are used up. -/
def State.loadBlock (s : State) (bytes : List Byte) : State :=
  { s with
    m := unpack bytes, w := s.h, j := 0#6, phase := 0b010#3, taken := Memory.keepFrom s.taken (64 * (s.blk + 1)) }

/-- A round operation writes the accumulators (R150). -/
def State.setW (s : State) (q : Quad) : State := { s with w := q }

/-- `if j = 63 then PHASE <- ACCUM else j <- j + 1` (R173). -/
def State.nextRound (s : State) : State :=
  if s.j = 63#6 then { s with phase := 0b011#3 } else { s with j := s.j + 1#6 }

/-- ACCUM (R174): the old blk is compared. -/
def State.accum (s : State) : State :=
  { s with
    h := addQuad s.h s.w, blk := s.blk + 1, phase := if s.blk + 1 = s.nblk then 0b100#3 else 0b001#3 }

/-- FINAL (R176). -/
def State.final (s : State) : State :=
  { s with digestLo := packLo s.h, digestHi := packHi s.h, status := s.status.finished, phase := 0b000#3 }

end Sys2Proof.Machine
end

