-- ==== Sys2Proof/Machine/Command.lean ====
section
/-! DEFINITION. The commands (spec/45_host_interface.md R230 to R233): a value written to CMD. Each row's meaning is
the write of its value to CMD in any state: while STATUS.BUSY = 1 every value but SOFT_RESET's is an overrun
(R84, R211; log entry 9). -/

namespace Sys2Proof.Machine

/-- NOP (R230): no effect. -/
def execNop (s : State) : Host.Outcome State Fault Refusal :=
  if s.status.busy then .next s.overrun else .next s

/-- DIGEST (R231): LENGTH_OVERFLOW, or START. -/
def execDigest (s : State) : Host.Outcome State Fault Refusal :=
  if s.status.busy then .next s.overrun else s.digestIdle

/-- SOFT_RESET (R232), in any phase. -/
def execSoftReset (s : State) : Host.Outcome State Fault Refusal := .next s.resetAction

/-- RESERVED_CMD (R233): BAD_COMMAND. The value is not kept (R250). -/
def execReservedCmd (_v : DWord) (s : State) : Host.Outcome State Fault Refusal :=
  if s.status.busy then .next s.overrun else .next (s.reject badCommand)

end Sys2Proof.Machine
end

