-- ==== Sys2Proof/Machine/HostPort.lean ====
section
/-! DEFINITION. The host's transactions (spec/45_host_interface.md R210 to R227). -/

namespace Sys2Proof.Machine

/-! ### Reads: the value goes to the read-data lines, and nothing else changes (R71, R81) -/

/-- RD_CMD (R212): CMD holds no value. -/
def execRdCmd (_data : DWord) (s : State) : Host.Outcome State Fault Refusal := .next (s.answer 0#64)

/-- RD_STATUS (R213). -/
def execRdStatus (_data : DWord) (s : State) : Host.Outcome State Fault Refusal := .next (s.answer s.status.word)

/-- RD_SRC_ADDR (R217). -/
def execRdSrcAddr (_data : DWord) (s : State) : Host.Outcome State Fault Refusal := .next (s.answer s.srcAddr)

/-- RD_LENGTH (R219). -/
def execRdLength (_data : DWord) (s : State) : Host.Outcome State Fault Refusal := .next (s.answer s.length)

/-- RD_DIGEST_LO (R220). -/
def execRdDigestLo (_data : DWord) (s : State) : Host.Outcome State Fault Refusal := .next (s.answer s.digestLo)

/-- RD_DIGEST_HI (R222). -/
def execRdDigestHi (_data : DWord) (s : State) : Host.Outcome State Fault Refusal := .next (s.answer s.digestHi)

/-- RD_DIGEST64 (R224): the fold of the two digest registers at the read. -/
def execRdDigest64 (_data : DWord) (s : State) : Host.Outcome State Fault Refusal :=
  .next (s.answer (fold s.digestLo s.digestHi))

/-- RD_CAPS (R226). -/
def execRdCaps (_data : DWord) (s : State) : Host.Outcome State Fault Refusal := .next (s.answer (capsWord s.params))

/-! ### Writes -/

/-- WR_CMD (R211): the command is performed in this one transaction. -/
def execWrCmd (v : DWord) (s : State) : Host.Outcome State Fault Refusal :=
  if s.status.busy then
    if v = 0x0000000000000002#64 then .next s.resetAction
    else .next s.overrun
  else if v = 0x0000000000000000#64 then .next s
  else if v = 0x0000000000000001#64 then s.digestIdle
  else if v = 0x0000000000000002#64 then .next s.resetAction
  else .next (s.reject badCommand)

/-- WR_STATUS (R215): ignored (R214). -/
def execWrStatus (_data : DWord) (s : State) : Host.Outcome State Fault Refusal := .next s

/-- WR_SRC_ADDR (R216). -/
def execWrSrcAddr (data : DWord) (s : State) : Host.Outcome State Fault Refusal := .next (s.setSrcAddr data)

/-- WR_LENGTH (R218). -/
def execWrLength (data : DWord) (s : State) : Host.Outcome State Fault Refusal := .next (s.setLength data)

/-- WR_DIGEST_LO (R221): ignored (R214). -/
def execWrDigestLo (_data : DWord) (s : State) : Host.Outcome State Fault Refusal := .next s

/-- WR_DIGEST_HI (R223): ignored (R214). -/
def execWrDigestHi (_data : DWord) (s : State) : Host.Outcome State Fault Refusal := .next s

/-- WR_DIGEST64 (R225): ignored (R214). -/
def execWrDigest64 (_data : DWord) (s : State) : Host.Outcome State Fault Refusal := .next s

/-- WR_CAPS (R227): ignored (R214); the parameters cannot be changed at run time. -/
def execWrCaps (_data : DWord) (s : State) : Host.Outcome State Fault Refusal := .next s

end Sys2Proof.Machine
end

