-- ==== Sys2Proof/Machine/Rounds.lean ====
section
/-! DEFINITION. The round operations (spec/42_rounds.md R151 to R154): each reads W, one word of M and the ROMs, and
writes W. Moving on to the next round is the ROUND step's part (spec/43_sequencer.md R173; log entry 10). -/

namespace Sys2Proof.Machine

/-- RND_F j, j = {00, POS} (R151). -/
def execRndF (pos : BitVec 4) (s : State) : Host.Outcome State Fault Refusal :=
  .next (s.setW (roundF (roundIndex 0b00#2 pos) s.m s.w))

/-- RND_G j, j = {01, POS} (R152). -/
def execRndG (pos : BitVec 4) (s : State) : Host.Outcome State Fault Refusal :=
  .next (s.setW (roundG (roundIndex 0b01#2 pos) s.m s.w))

/-- RND_H j, j = {10, POS} (R153). -/
def execRndH (pos : BitVec 4) (s : State) : Host.Outcome State Fault Refusal :=
  .next (s.setW (roundH (roundIndex 0b10#2 pos) s.m s.w))

/-- RND_I j, j = {11, POS} (R154). -/
def execRndI (pos : BitVec 4) (s : State) : Host.Outcome State Fault Refusal :=
  .next (s.setW (roundI (roundIndex 0b11#2 pos) s.m s.w))

end Sys2Proof.Machine
end

