-- ==== Sys2Proof/Machine/Sequencer.lean ====
section
/-! DEFINITION. The sequencer's steps (spec/43_sequencer.md R170 to R176), one for each phase. -/

namespace Sys2Proof.Machine

/-- PHASE_IDLE (R170): the block has no step of its own and waits. -/
def execPhaseIdle (s : State) : Host.Outcome State Fault Refusal := .next s

/-- PHASE_LOAD (R172). On an input read that is not admitted the step does not complete (R256). -/
def execPhaseLoad (s : State) : Host.Outcome State Fault Refusal :=
  match s.streamBytes (64 * s.blk) 64 with
  | .error f => .fault f
  | .ok bytes => .next (s.loadBlock bytes)

/-- PHASE_ROUND (R173): the round operation that `j[5:4]` selects, then the next round or ACCUM. -/
def execPhaseRound (s : State) : Host.Outcome State Fault Refusal := .next (s.setW (roundAt s.j s.m s.w)).nextRound

/-- PHASE_ACCUM (R174). -/
def execPhaseAccum (s : State) : Host.Outcome State Fault Refusal := .next s.accum

/-- PHASE_FINAL (R176). -/
def execPhaseFinal (s : State) : Host.Outcome State Fault Refusal := .next s.final

end Sys2Proof.Machine
end

