-- ==== Sys2Proof/Machine/Dispatch.lean ====
section
/-! DEFINITION. One arm per operation, each a direct call of its meaning. -/

namespace Sys2Proof.Machine

def exec (i : Instr) (s : State) : Host.Outcome State Fault Refusal :=
  match i with
  | .rdCmd data => Sys2Proof.Machine.execRdCmd data s
  | .rdStatus data => Sys2Proof.Machine.execRdStatus data s
  | .rdSrcAddr data => Sys2Proof.Machine.execRdSrcAddr data s
  | .rdLength data => Sys2Proof.Machine.execRdLength data s
  | .rdDigestLo data => Sys2Proof.Machine.execRdDigestLo data s
  | .rdDigestHi data => Sys2Proof.Machine.execRdDigestHi data s
  | .rdDigest64 data => Sys2Proof.Machine.execRdDigest64 data s
  | .rdCaps data => Sys2Proof.Machine.execRdCaps data s
  | .wrCmd data => Sys2Proof.Machine.execWrCmd data s
  | .wrStatus data => Sys2Proof.Machine.execWrStatus data s
  | .wrSrcAddr data => Sys2Proof.Machine.execWrSrcAddr data s
  | .wrLength data => Sys2Proof.Machine.execWrLength data s
  | .wrDigestLo data => Sys2Proof.Machine.execWrDigestLo data s
  | .wrDigestHi data => Sys2Proof.Machine.execWrDigestHi data s
  | .wrDigest64 data => Sys2Proof.Machine.execWrDigest64 data s
  | .wrCaps data => Sys2Proof.Machine.execWrCaps data s
  | .nop => Sys2Proof.Machine.execNop s
  | .digest => Sys2Proof.Machine.execDigest s
  | .softReset => Sys2Proof.Machine.execSoftReset s
  | .reservedCmd v => Sys2Proof.Machine.execReservedCmd v s
  | .rndF pos => Sys2Proof.Machine.execRndF pos s
  | .rndG pos => Sys2Proof.Machine.execRndG pos s
  | .rndH pos => Sys2Proof.Machine.execRndH pos s
  | .rndI pos => Sys2Proof.Machine.execRndI pos s
  | .phaseIdle => Sys2Proof.Machine.execPhaseIdle s
  | .phaseLoad => Sys2Proof.Machine.execPhaseLoad s
  | .phaseRound => Sys2Proof.Machine.execPhaseRound s
  | .phaseAccum => Sys2Proof.Machine.execPhaseAccum s
  | .phaseFinal => Sys2Proof.Machine.execPhaseFinal s

end Sys2Proof.Machine
end

