-- ==== Sys2Proof/Machine/Fetch.lean ====
section
/-! DEFINITION. What comes next in the total order of spec/20_memory.md R74: an operation to run, or a turn of the
outside world (log entry 1). -/

namespace Sys2Proof.Machine

/-- What a turn comes to. -/
inductive Fetched where
  /-- The operation `i`, in the state that the turn leaves. -/
  | run (i : Instr) (s : State)
  /-- A turn that runs no operation. -/
  | done (o : Host.Outcome State Fault Refusal)

/-- The engine's step is the operation of its phase (R170); a PHASE outside the five is a fault (R86). DESIGN CHOICE (log
entry 11): that fault shows at the engine's turn, where PHASE is decoded, and at no other turn. -/
def fetchEngine (s : State) : Fetched :=
  match decodePhase s.phase with
  | .ok i => .run i s
  | .error (.reservedPhase p) => .done (.fault (.illegalPhase p))

/-- The host's transaction (R81, R210). -/
def fetchHost (word : BusWord) (s : State) : Fetched := .run (decodeBus word) s

/-- An input read in its window (R64); not admitted, it is the fault (R63). A read that is not due is not performed,
and the turn changes nothing. DESIGN CHOICE (log entry 11): a PHASE of 101, 110 or 111 is the fault of R86 at an engine
turn only; such a turn `read` sees any PHASE but LOAD as one whose next LOAD is of block blk + 1. -/
def earlyRead (i : Nat) (s : State) : Host.Outcome State Fault Refusal :=
  if s.readDue i then
    match s.memRead (s.msgAddr i) with
    | .ok b => .next (s.take i b)
    | .error f => .fault f
  else .next s

/-- The next turn, in the state without it. With no turn left it is the engine's: a block in a phase other than IDLE
takes its step (R177). -/
def fetch (s : State) : Fetched :=
  match s.order with
  | [] => fetchEngine s
  | turn :: rest =>
    match turn with
    | .engine => fetchEngine (s.turnsLeft rest)
    | .host word => fetchHost word (s.turnsLeft rest)
    | .read i => .done (earlyRead i (s.turnsLeft rest))
    | .place a v => .done (.next ((s.turnsLeft rest).place a v))
    | .withdraw a => .done (.next ((s.turnsLeft rest).withdraw a))
    | .reset => .done (.next (s.turnsLeft rest).resetAction)

/-- The state with an encoded value placed where the next turn takes its operation from: a host transaction, a command
(the WR_CMD transaction that issues it), a round index in phase ROUND, or a phase (log entry 13). -/
def State.withEncoded (s : State) (e : Encoded) : State :=
  match e with
  | .bus word => { s with order := .host word :: s.order }
  | .cmd v => { s with order := .host (busWord 0x8#4 v) :: s.order }
  | .round j => { s with order := .engine :: s.order, phase := 0b010#3, j := j }
  | .phase p => { s with order := .engine :: s.order, phase := p }

end Sys2Proof.Machine
end

