-- ==== Sys2Proof/Machine/Step.lean ====
section
/-! DEFINITION. One step: the next turn of the total order (spec/20_memory.md R74). -/

namespace Sys2Proof.Machine

/-- Take the next turn and run its operation. -/
def step (s : State) : Host.Outcome State Fault Refusal :=
  match fetch s with
  | .run i t => exec i t
  | .done o => o

/-- The state with a word of spec/opcode_table.json placed where step takes its next operation (log entry 13). -/
def State.withFetchWord (s : State) (nbits w : Nat) : State :=
  match tableWord nbits w with
  | some e => s.withEncoded e
  | none => s

end Sys2Proof.Machine
end

