-- ==== Sys2Proof/Machine/Digest.lean ====
section
/-! DEFINITION. The functions the sequence computes, pure: the padded stream of a message, COMPRESS
(spec/42_rounds.md R155), MD5CORE, digest and digest64 (spec/43_sequencer.md R179). No step calls them: they are what
the steps are compared with (R180). -/

namespace Sys2Proof.Machine

/-- Byte i of the padded stream P of a message (R101). -/
def paddedByte (mode : LenMode) (msg : List Byte) (i : Nat) : Byte :=
  if i < msg.length then msg.getD i 0#8 else padByte mode msg.length i

/-- `PB(b)`: bytes 64b to 64b + 63 of the padded stream (R107). -/
def paddedBlock (mode : LenMode) (msg : List Byte) (b : Nat) : List Byte :=
  (List.range 64).map fun t => paddedByte mode msg (64 * b + t)

/-- The accumulators after rounds 0 to n - 1 on message words m (R155). -/
def rounds (m : Block) (q : Quad) : Nat → Quad
  | 0 => q
  | n + 1 => roundAt (BitVec.ofNat 6 n) m (rounds m q n)

/-- COMPRESS (R155). -/
def compress (hin : Quad) (bytes : List Byte) : Quad := addQuad hin (rounds (unpack bytes) hin 64)

/-- The chaining value after the first n blocks of a message (R179). -/
def chain (mode : LenMode) (msg : List Byte) : Nat → Quad
  | 0 => iv
  | n + 1 => compress (chain mode msg n) (paddedBlock mode msg n)

/-- MD5CORE (R179). -/
def md5core (mode : LenMode) (msg : List Byte) : Quad := chain mode msg (blockCount msg.length)

/-- The first element of `digest(MSG)` (R179): DIGEST_LO. -/
def digestOfLo (mode : LenMode) (msg : List Byte) : DWord := packLo (md5core mode msg)

/-- The second element of `digest(MSG)` (R179): DIGEST_HI. -/
def digestOfHi (mode : LenMode) (msg : List Byte) : DWord := packHi (md5core mode msg)

/-- `digest64(MSG) = FOLD(digest(MSG))` (R179, R201). -/
def digest64Of (mode : LenMode) (msg : List Byte) : DWord := fold (digestOfLo mode msg) (digestOfHi mode msg)

/-- The 16 digest bytes in RFC 1321 order: DIGEST_LO in little-endian order, then DIGEST_HI
(spec/20_memory.md R68). -/
def digestBytes (lo hi : DWord) : List Byte := (List.range 8).map (leByte lo) ++ (List.range 8).map (leByte hi)

end Sys2Proof.Machine
end

