-- ==== Sys2Proof/Safety.lean ====
section
/-! DEFINITION. What counts as a state of a safe run: the invariants of spec/10_state.md R51 with what they need to be
inductive, and the invariant of the digest in progress of spec/43_sequencer.md R180. -/

namespace Sys2Proof.Machine

/-! ### What an operation leaves unchanged -/

/-- The host-visible registers that hold a value, but STATUS (R30). -/
@[simp] abbrev State.keepsRegisters (s t : State) : Prop :=
  t.srcAddr = s.srcAddr ∧ t.length = s.length ∧ t.digestLo = s.digestLo ∧ t.digestHi = s.digestHi

/-- The sequencer's state (R23 to R26). -/
@[simp] abbrev State.keepsSequencer (s t : State) : Prop :=
  t.phase = s.phase ∧ t.j = s.j ∧ t.blk = s.blk ∧ t.nblk = s.nblk ∧ t.lsrc = s.lsrc ∧ t.llen = s.llen

/-- The datapath (R20, R21, R27). -/
@[simp] abbrev State.keepsDatapath (s t : State) : Prop := t.h = s.h ∧ t.w = s.w ∧ t.m = s.m

/-- Every byte of input memory reads as before (R61). -/
@[simp] abbrev State.keepsMemory (s t : State) : Prop := ∀ a, t.memByte a = s.memByte a

/-- The instance, the platform's side-effect regions and the turns to come. -/
@[simp] abbrev State.keepsOutside (s t : State) : Prop := t.params = s.params ∧ t.devices = s.devices ∧ t.order = s.order

/-- The reads of the eight registers, with data bits d (R88). -/
@[simp] abbrev registerReads (d : DWord) : List Instr :=
  [.rdCmd d, .rdStatus d, .rdSrcAddr d, .rdLength d, .rdDigestLo d, .rdDigestHi d, .rdDigest64 d, .rdCaps d]

/-! ### The invariant of every state (R51) -/

/-- The relations among the fields of STATUS (R33 to R36, R51). -/
abbrev State.StatusInv (s : State) : Prop :=
  (s.status.busy = true ↔ s.phase ≠ 0b000#3) ∧
  (s.status.busy = true → s.status.done = false ∧ s.status.err = false) ∧
  (s.status.err = false → s.status.errCode = 0x0#4) ∧
  (s.status.err = true → s.status.errCode = 0x1#4 ∨ s.status.errCode = 0x2#4) ∧
  (s.status.done = true → s.status.err = false) ∧
  (s.status.busy = false → s.status.overrun = true → s.status.done = true ∨ s.status.err = true)

/-- The sequencer's counters (R25, R51, R86). -/
abbrev State.SequencerInv (s : State) : Prop :=
  s.phase.toNat ≤ 4 ∧
  (s.status.busy = true → s.nblk = blockCount s.llen.toNat ∧ 1 ≤ s.nblk) ∧
  (s.phase = 0b001#3 ∨ s.phase = 0b010#3 ∨ s.phase = 0b011#3 → s.blk < s.nblk) ∧
  (s.phase = 0b100#3 → s.blk = s.nblk)

/-- Input memory and the message bytes already read are in canonical form, and each of the latter belongs to the
digest in progress and to a block whose LOAD is to come (R64). -/
abbrev State.InputInv (s : State) : Prop :=
  Memory.wf s.mem ∧ Memory.wf s.taken ∧
  ∀ c ∈ s.taken, s.status.busy = true ∧ c.1 < s.llen.toNat ∧ s.nextLoad ≤ c.1 / 64

/-- The invariant that every step keeps. -/
abbrev State.Inv (s : State) : Prop := s.StatusInv ∧ s.SequencerInv ∧ s.InputInv ∧ s.params.wf

/-! ### Input memory that holds a message -/

/-- Every one of the n addresses from lo on is readable: the premise that R256 asks of a claim about a digest. -/
abbrev State.readable (s : State) (lo n : Nat) : Prop := ∀ i, i < n → ∃ b, s.memRead (lo + i) = .ok b

/-- Input memory holds a message from address lo on. -/
abbrev State.holdsMessage (s : State) (lo : Nat) (msg : List Byte) : Prop :=
  ∀ i, i < msg.length → s.memRead (lo + i) = .ok (msg.getD i 0#8)

/-- No region with read side effects holds one of the n addresses from lo on (R62). -/
abbrev State.sideEffectFree (s : State) (lo n : Nat) : Prop := ∀ r ∈ s.devices, r.meets lo n = false

/-! ### The digest of a message in progress (R180) -/

/-- How far the digest of msg has come in each phase: H holds the chaining value of the blocks done, and in the rounds
of a block W holds the accumulators after rounds 0 to j - 1. -/
def State.stageOf (s : State) (msg : List Byte) : Prop :=
  (s.phase = 0b001#3 ∧ s.blk < s.nblk ∧ s.h = chain s.params.lenMode msg s.blk) ∨
  (s.phase = 0b010#3 ∧ s.blk < s.nblk ∧ s.h = chain s.params.lenMode msg s.blk ∧
    s.m = unpack (paddedBlock s.params.lenMode msg s.blk) ∧ s.w = rounds s.m s.h s.j.toNat) ∨
  (s.phase = 0b011#3 ∧ s.blk < s.nblk ∧ s.h = chain s.params.lenMode msg s.blk ∧
    s.m = unpack (paddedBlock s.params.lenMode msg s.blk) ∧ s.w = rounds s.m s.h 64) ∨
  (s.phase = 0b100#3 ∧ s.blk = s.nblk ∧ s.h = chain s.params.lenMode msg s.nblk)

/-- The block is computing the digest of msg: the latched length is msg's, the bytes still to be loaded are msg's, and
the stage is right. -/
structure State.Digesting (s : State) (msg : List Byte) : Prop where
  busy : s.status.busy = true
  length : s.llen.toNat = msg.length
  count : s.nblk = blockCount msg.length
  bytes : ∀ i, i < msg.length → s.nextLoad ≤ i / 64 → s.msgByte i = .ok (msg.getD i 0#8)
  stage : s.stageOf msg

/-- A turn that leaves the digest in progress alone: any but a reset, the SOFT_RESET command, and a change of a message
byte (R283 asks the host not to change one while busy). -/
def State.leavesDigest (s : State) : Turn → Prop
  | .engine => True
  | .read _ => True
  | .host word => decodeBus word ≠ .wrCmd 0x0000000000000002#64
  | .place a _ => a < s.lsrc.toNat ∨ s.lsrc.toNat + s.llen.toNat ≤ a
  | .withdraw a => a < s.lsrc.toNat ∨ s.lsrc.toNat + s.llen.toNat ≤ a
  | .reset => False

end Sys2Proof.Machine
end

