-- ==== Sys2Proof/Certificates/Slice0/Obligations.lean ====
section
/-! DEFINITION. The statements about the model. Each docstring names the rule of spec/ it formalises. -/

open Sys2Proof Sys2Proof.Machine

/-! ## Encodings -/

/-- R88: decoding the encoding of any well-formed operation, with every operand at every value, gives it back. -/
def Obligations.DecodeOfEncodeIsIdentity : Prop :=
  ∀ i : Instr, i.wf = true → decode (encode i) = .ok i

/-- R81, R84, R82, R86: a decoded operation is well formed and its encoding is the value it was decoded from, so no two
encodings of a format share an operation and no bit is dropped. -/
def Obligations.EncodeOfDecodeIsIdentity : Prop :=
  ∀ (e : Encoded) (i : Instr), decode e = .ok i → i.wf = true ∧ encode i = e

/-- Words written out from the spec's encodings, one or more of each format (R81, R84, R82, R86). -/
def Obligations.WrittenWordsDecode : Prop :=
  decode (.bus 0xa0000000000001000#68) = .ok (.wrSrcAddr 0x1000#64) ∧
  decode (.bus 0xb0000000000000038#68) = .ok (.wrLength 0x38#64) ∧
  decode (.bus 0x80000000000000101#68) = .ok (.wrCmd 0x101#64) ∧
  decode (.bus 0x10000000000000000#68) = .ok (.rdStatus 0#64) ∧
  decode (.bus 0x70000000000000000#68) = .ok (.rdCaps 0#64) ∧
  decode (.cmd 0x0000000000000001#64) = .ok .digest ∧
  decode (.cmd 0x0000000000000101#64) = .ok (.reservedCmd 0x101#64) ∧
  decode (.round 0b010011#6) = .ok (.rndG 0b0011#4) ∧
  decode (.round 0b111111#6) = .ok (.rndI 0b1111#4) ∧
  decode (.phase 0b011#3) = .ok .phaseAccum ∧
  decode (.phase 0b101#3) = .error (.reservedPhase 0b101#3)

/-- R84, R85: the CMD values of the three commands, and the reserved ones, which are those with `v[63:8] != 0` or
`v[7:0]` from 0x03 to 0xFF. -/
def Obligations.CommandValuesDecode : Prop :=
  ∀ v : DWord,
    (decodeCmd v = .nop ↔ v = 0x0000000000000000#64) ∧
    (decodeCmd v = .digest ↔ v = 0x0000000000000001#64) ∧
    (decodeCmd v = .softReset ↔ v = 0x0000000000000002#64) ∧
    (decodeCmd v = .reservedCmd v ↔ v.toNat / 2 ^ 8 ≠ 0 ∨ (0x03 ≤ v.toNat % 2 ^ 8 ∧ v.toNat % 2 ^ 8 ≤ 0xFF))

/-- R82: SEL selects the round operation by the range of j, and POS is the place in the group of 16. -/
def Obligations.RoundRangesDecode : Prop :=
  ∀ j : BitVec 6,
    (j.toNat < 16 → decodeRound j = .rndF (BitVec.ofNat 4 j.toNat)) ∧
    (16 ≤ j.toNat → j.toNat < 32 → decodeRound j = .rndG (BitVec.ofNat 4 (j.toNat - 16))) ∧
    (32 ≤ j.toNat → j.toNat < 48 → decodeRound j = .rndH (BitVec.ofNat 4 (j.toNat - 32))) ∧
    (48 ≤ j.toNat → decodeRound j = .rndI (BitVec.ofNat 4 (j.toNat - 48)))

/-! ## The step -/

/-- R74, R81: a host turn runs the operation its transaction decodes to, in the state without that turn. The list of turns
is the model's choice (log entry 1). -/
def Obligations.StepRunsHostTransaction : Prop :=
  ∀ (s : State) (word : BusWord) (rest : List Turn), s.order = .host word :: rest →
    step s = exec (decodeBus word) { s with order := rest }

/-- R170, R86: an engine turn runs the operation its PHASE decodes to; so does a step with no turn left. The list of turns
is the model's choice (log entry 1). -/
def Obligations.StepRunsPhaseOperation : Prop :=
  ∀ (s : State) (i : Instr), decodePhase s.phase = .ok i →
    (s.order = [] → step s = exec i s) ∧
    (∀ rest, s.order = .engine :: rest → step s = exec i { s with order := rest })

/-- R86: at a PHASE of 101, 110 or 111 an engine turn is a fault, which names the value. The list of turns and the 3-bit
PHASE are the model's choice (log entries 1, 11). -/
def Obligations.IllegalPhaseFaults : Prop :=
  ∀ s : State, 5 ≤ s.phase.toNat → (s.order = [] ∨ ∃ rest, s.order = .engine :: rest) →
    step s = .fault (.illegalPhase s.phase)

/-- R61, R63, R280: the host's changes of input memory change the one byte they name, and hardware reset is the reset
action: PHASE IDLE, STATUS, SRC_ADDR, LENGTH and both digest registers 0. What the reset action leaves in the other
registers is free (log entry 4), and nothing is said of it. That it empties the list of bytes read early is deduced (log
entry 7). That these come as turns, that a byte placed is listed at any address, and that the read-data lines are left, is
the model's choice (log entries 1, 5, 18, 19). -/
def Obligations.OutsideTurns : Prop :=
  ∀ (s : State) (rest : List Turn),
    (∀ a v, s.order = .place a v :: rest → ∃ t, step s = .next t ∧ t.memByte a = some v ∧
      (∀ b, b ≠ a → t.memByte b = s.memByte b) ∧ t = { s with order := rest, mem := t.mem }) ∧
    (∀ a, s.order = .withdraw a :: rest → ∃ t, step s = .next t ∧ t.memByte a = none ∧
      (∀ b, b ≠ a → t.memByte b = s.memByte b) ∧ t = { s with order := rest, mem := t.mem }) ∧
    (s.order = .reset :: rest → ∃ t, step s = .next t ∧ t.phase = 0b000#3 ∧ t.status = Status.zero ∧
      t.srcAddr = 0#64 ∧ t.length = 0#64 ∧ t.digestLo = 0#64 ∧ t.digestHi = 0#64 ∧ t.taken = [] ∧ t.order = rest ∧
      t.params = s.params ∧ t.devices = s.devices ∧ t.rdata = s.rdata ∧ s.keepsMemory t)

/-- R64, R63, R72: an input read of message byte i is due from START up to the LOAD of block i div 64, if it has not been
performed: a digest is in progress, i < LLEN, and that LOAD is to come. A read that is due keeps the byte its memory holds
then, so that no later change of input memory reaches it, and leaves every other byte kept; or it is the fault of its
address. One that is not due changes nothing. That a read before LOAD is a turn, and how the bytes are kept, is the model's
choice (log entry 7). -/
def Obligations.EarlyReadTurns : Prop :=
  ∀ (s : State) (i : Nat) (rest : List Turn), s.order = .read i :: rest →
    (s.readDue i = true ↔ s.status.busy = true ∧ i < s.llen.toNat ∧
      (s.blk < i / 64 ∨ (s.blk = i / 64 ∧ s.phase = 0b001#3)) ∧ Memory.read s.taken i = none) ∧
    (s.readDue i = false → step s = .next { s with order := rest }) ∧
    (s.readDue i = true → ∀ b, s.memRead (s.lsrc.toNat + i) = .ok b →
      ∃ t, step s = .next t ∧ Memory.read t.taken i = some b ∧ (∀ m, State.msgByte { t with mem := m } i = .ok b) ∧
        (∀ k, k ≠ i → Memory.read t.taken k = Memory.read s.taken k) ∧ t = { s with order := rest, taken := t.taken }) ∧
    (s.readDue i = true → (∀ b, s.memRead (s.lsrc.toNat + i) ≠ .ok b) →
      step s = .fault (.inputUnreadable (s.lsrc.toNat + i)))

/-! ## Reads of the register port -/

/-- R212, R217, R219, R220, R222: a read of CMD gives 0, and a read of SRC_ADDR, LENGTH, DIGEST_LO or DIGEST_HI gives the
register, whatever the data bits of the transaction. The value is put into the model's field rdata (log entry 5). -/
def Obligations.PlainReadsComplete : Prop :=
  ∀ (s : State) (d : DWord),
    exec (.rdCmd d) s = .next { s with rdata := 0#64 } ∧
    exec (.rdSrcAddr d) s = .next { s with rdata := s.srcAddr } ∧
    exec (.rdLength d) s = .next { s with rdata := s.length } ∧
    exec (.rdDigestLo d) s = .next { s with rdata := s.digestLo } ∧
    exec (.rdDigestHi d) s = .next { s with rdata := s.digestHi }

/-- R213, R32: the value that a read of STATUS gives, by the places of its fields. The value is put into the model's field
rdata (log entry 5). -/
def Obligations.StatusReadCompletes : Prop :=
  ∀ (s : State) (d : DWord), ∃ t, exec (.rdStatus d) s = .next t ∧
    t.rdata.toNat = s.status.busy.toNat + 2 * s.status.done.toNat + 4 * s.status.err.toNat +
      8 * s.status.overrun.toNat + 16 * s.status.errCode.toNat

/-- R200: a read of DIGEST64 gives the XOR of the two halves; equal halves fold to 0, and so it reads 0 after reset. The
value is put into the model's field rdata (log entry 5). -/
def Obligations.FoldReadCompletes : Prop :=
  ∀ (s : State) (d : DWord),
    exec (.rdDigest64 d) s = .next { s with rdata := s.digestLo ^^^ s.digestHi } ∧
    (s.digestLo = s.digestHi → exec (.rdDigest64 d) s = .next { s with rdata := 0#64 }) ∧
    exec (.rdDigest64 d) State.reset = .next { State.reset with rdata := 0#64 }

/-- R226, R38: the value that a read of CAPS gives, by the places of its fields; 0x4000 on a default instance. No
operation changes it. The value is put into the model's field rdata (log entry 5). -/
def Obligations.CapsReadCompletes : Prop :=
  (∀ (s : State) (d : DWord), s.params.wf → ∃ t, exec (.rdCaps d) s = .next t ∧
    t.rdata.toNat = (decide (s.params.lenMode = .low32)).toNat + 2 * s.params.strict.toNat + 256 * s.params.addrW) ∧
  (∀ (s : State) (d : DWord), s.params = { lenMode := .full64, strict := false, addrW := 64 } →
    exec (.rdCaps d) s = .next { s with rdata := 0x0000000000004000#64 }) ∧
  (∀ (i : Instr) (s t : State), exec i s = .next t → t.params = s.params)

/-- R71: no read of a register changes a register, the sequencer, the datapath or a byte of input memory. What it puts
on the read-data lines is the model's field rdata (log entry 5). -/
def Obligations.ReadsChangeNothing : Prop :=
  ∀ (s t : State) (d : DWord), ∀ i ∈ registerReads d, exec i s = .next t →
    t.status = s.status ∧ s.keepsRegisters t ∧ s.keepsSequencer t ∧ s.keepsDatapath t ∧ s.keepsMemory t

/-! ## Writes to the register port -/

/-- R214: a write to a read-only register changes no state. -/
def Obligations.ReadOnlyWritesComplete : Prop :=
  ∀ (s : State) (d : DWord),
    exec (.wrStatus d) s = .next s ∧ exec (.wrDigestLo d) s = .next s ∧ exec (.wrDigestHi d) s = .next s ∧
    exec (.wrDigest64 d) s = .next s ∧ exec (.wrCaps d) s = .next s

/-- R216, R217: a write of SRC_ADDR, of any 64-bit value, is what the next read of it gives, and changes nothing else: the
latched LSRC and LLEN are left, busy or not. The value read is put into the model's field rdata (log entry 5). -/
def Obligations.SrcAddrWriteCompletes : Prop :=
  ∀ (s : State) (v d : DWord), ∃ t, exec (.wrSrcAddr v) s = .next t ∧ t.srcAddr = v ∧
    exec (.rdSrcAddr d) t = .next { t with rdata := v } ∧
    t.length = s.length ∧ t.digestLo = s.digestLo ∧ t.digestHi = s.digestHi ∧ t.status = s.status ∧
    s.keepsSequencer t ∧ s.keepsDatapath t ∧ s.keepsMemory t

/-- R218, R219: the same for LENGTH. The value read is put into the model's field rdata (log entry 5). -/
def Obligations.LengthWriteCompletes : Prop :=
  ∀ (s : State) (v d : DWord), ∃ t, exec (.wrLength v) s = .next t ∧ t.length = v ∧
    exec (.rdLength d) t = .next { t with rdata := v } ∧
    t.srcAddr = s.srcAddr ∧ t.digestLo = s.digestLo ∧ t.digestHi = s.digestHi ∧ t.status = s.status ∧
    s.keepsSequencer t ∧ s.keepsDatapath t ∧ s.keepsMemory t

/-- R211, R84: in any state, WR_CMD is the command that its value decodes to. That a CMD row means the write of its value
is the model's reading (log entry 9). -/
def Obligations.WriteOfCmdIsItsCommand : Prop :=
  ∀ (v : DWord) (s : State), exec (.wrCmd v) s = exec (decodeCmd v) s

/-- R26, R45: what an engine operation does, and whether it faults, does not depend on SRC_ADDR, LENGTH or the read-data
lines, and it leaves them: host writes to them do not disturb a digest in progress. The read-data lines are the
model's field (log entry 5). -/
def Obligations.EngineIgnoresHostRegisters : Prop :=
  ∀ (s : State) (i : Instr) (a l r : DWord),
    (i = .phaseIdle ∨ i = .phaseLoad ∨ i = .phaseRound ∨ i = .phaseAccum ∨ i = .phaseFinal ∨
      ∃ pos, i = .rndF pos ∨ i = .rndG pos ∨ i = .rndH pos ∨ i = .rndI pos) →
    (∀ t, exec i s = .next t → exec i { s with srcAddr := a, length := l, rdata := r } =
      .next { t with srcAddr := a, length := l, rdata := r }) ∧
    (∀ f, exec i s = .fault f → exec i { s with srcAddr := a, length := l, rdata := r } = .fault f)

/-! ## Commands and conditions -/

/-- R230: NOP written while idle has no effect; its value written while busy is an overrun. -/
def Obligations.NopCompletes : Prop :=
  ∀ s : State, ∀ i ∈ [Instr.nop, .wrCmd 0x0000000000000000#64],
    (s.status.busy = false → exec i s = .next s) ∧
    (s.status.busy = true → exec i s = .next { s with status := { s.status with overrun := true } })

/-- R255: a write to CMD while busy of any value except 0x2 sets OVERRUN and does nothing else; the digest in progress
goes on unchanged. -/
def Obligations.BusyCommandIsOverrun : Prop :=
  ∀ (s : State) (v : DWord), s.status.busy = true → v ≠ 0x0000000000000002#64 →
    exec (.wrCmd v) s = .next { s with status := { s.status with overrun := true } }

/-- R251, R252: a value other than 0x0, 0x1 and 0x2 written to CMD while idle is rejected with BAD_COMMAND: ERR is set,
ERR_CODE is 0x1, DONE is cleared, and nothing else changes. -/
def Obligations.ReservedCommandRejected : Prop :=
  ∀ (s : State) (v : DWord), s.status.busy = false →
    v ≠ 0x0000000000000000#64 → v ≠ 0x0000000000000001#64 → v ≠ 0x0000000000000002#64 →
    ∀ i ∈ [Instr.reservedCmd v, .wrCmd v], ∃ t, exec i s = .next t ∧
      t.status.err = true ∧ t.status.errCode = 0x1#4 ∧ t.status.done = false ∧
      t.status.busy = false ∧ t.status.overrun = s.status.overrun ∧
      s.keepsRegisters t ∧ s.keepsSequencer t ∧ s.keepsDatapath t ∧ s.keepsMemory t

/-- R253, R252: with STRICT_LENGTH = 1, a DIGEST written while idle with a LENGTH of 2^61 (FULL64) or 2^29 (LOW32) or
more is rejected with LENGTH_OVERFLOW, and no START happens; no other operation raises it. -/
def Obligations.LengthOverflowRejected : Prop :=
  (∀ s : State, s.status.busy = false → s.params.strict = true →
    (s.params.lenMode = .full64 → 2 ^ 61 ≤ s.length.toNat) → (s.params.lenMode = .low32 → 2 ^ 29 ≤ s.length.toNat) →
    ∀ i ∈ [Instr.digest, .wrCmd 0x0000000000000001#64], ∃ t, exec i s = .next t ∧
      t.status.err = true ∧ t.status.errCode = 0x2#4 ∧ t.status.done = false ∧
      t.status.busy = false ∧ t.status.overrun = s.status.overrun ∧
      s.keepsRegisters t ∧ s.keepsSequencer t ∧ s.keepsDatapath t ∧ s.keepsMemory t) ∧
  (∀ (i : Instr) (s t : State), exec i s = .next t → t.status.errCode = 0x2#4 → s.status.errCode ≠ 0x2#4 →
    (i = .digest ∨ i = .wrCmd 0x0000000000000001#64) ∧ s.status.busy = false ∧ s.params.strict = true ∧
    (s.params.lenMode = .full64 → 2 ^ 61 ≤ s.length.toNat) ∧ (s.params.lenMode = .low32 → 2 ^ 29 ≤ s.length.toNat))

/-- R171: a DIGEST accepted while idle performs START: every register START writes, and what it leaves. R231: accepted is
every LENGTH when STRICT_LENGTH = 0. R62: the input has no read side effects. The IV is the spec's value from general
knowledge (log entry 14), and how a region with read side effects is known is the model's choice (log entry 8). -/
def Obligations.AcceptedDigestStarts : Prop :=
  ∀ s : State, s.status.busy = false →
    (s.params.strict = true → s.params.lenMode = .full64 → s.length.toNat < 2 ^ 61) →
    (s.params.strict = true → s.params.lenMode = .low32 → s.length.toNat < 2 ^ 29) →
    s.sideEffectFree s.srcAddr.toNat s.length.toNat →
    ∀ i ∈ [Instr.digest, .wrCmd 0x0000000000000001#64], ∃ t, exec i s = .next t ∧
      t.lsrc = s.srcAddr ∧ t.llen = s.length ∧ t.nblk = (s.length.toNat + 8) / 64 + 1 ∧ t.blk = 0 ∧
      t.h = { a := 0x67452301#32, b := 0xefcdab89#32, c := 0x98badcfe#32, d := 0x10325476#32 } ∧
      t.status = { busy := true, done := false, err := false, overrun := false, errCode := 0x0#4 } ∧
      t.phase = 0b001#3 ∧
      s.keepsRegisters t ∧ t.j = s.j ∧ t.w = s.w ∧ t.m = s.m ∧ s.keepsMemory t

/-- R62, R231: a launch over input memory with read side effects is refused, by name: a DIGEST written while idle, with any
LENGTH where STRICT_LENGTH = 0 and with one below the limit where it is 1. How such a region is known is the model's
choice (log entry 8). -/
def Obligations.SideEffectLaunchRefused : Prop :=
  ∀ s : State, s.status.busy = false →
    (s.params.strict = true → s.params.lenMode = .full64 → s.length.toNat < 2 ^ 61) →
    (s.params.strict = true → s.params.lenMode = .low32 → s.length.toNat < 2 ^ 29) →
    (∃ r ∈ s.devices, ∃ a, r.base ≤ a ∧ a < r.base + r.size ∧ s.srcAddr.toNat ≤ a ∧
      a < s.srcAddr.toNat + s.length.toNat) →
    ∀ i ∈ [Instr.digest, .wrCmd 0x0000000000000001#64],
      exec i s = .refused (.sideEffectInput s.srcAddr.toNat s.length.toNat)

/-- R232, R280: SOFT_RESET, in any phase, busy or not, performs the reset action. What it leaves in the internal registers
is free (log entry 4), and nothing is said of it. That it empties the list of bytes read early is deduced from R64 and R280
(log entry 7). The value of the read of DIGEST64 is put into the model's field rdata (log entry 5). -/
def Obligations.SoftResetCompletes : Prop :=
  ∀ (s : State) (d : DWord), ∀ i ∈ [Instr.softReset, .wrCmd 0x0000000000000002#64], ∃ t, exec i s = .next t ∧
    t.phase = 0b000#3 ∧ t.status = { busy := false, done := false, err := false, overrun := false, errCode := 0x0#4 } ∧
    t.srcAddr = 0#64 ∧ t.length = 0#64 ∧ t.digestLo = 0#64 ∧ t.digestHi = 0#64 ∧ t.taken = [] ∧
    exec (.rdDigest64 d) t = .next { t with rdata := 0#64 } ∧
    s.keepsMemory t

/-- R210: no host transaction is a fault, and none is refused but the launch that R62 refuses. That refusal is the model's
(log entry 8). -/
def Obligations.TransactionsAnswer : Prop :=
  ∀ (s : State) (word : BusWord),
    (∃ t, exec (decodeBus word) s = .next t) ∨
    (decodeBus word = .wrCmd 0x0000000000000001#64 ∧ s.status.busy = false ∧
      ¬ s.sideEffectFree s.srcAddr.toNat s.length.toNat ∧
      exec (decodeBus word) s = .refused (.sideEffectInput s.srcAddr.toNat s.length.toNat))

/-! ## Round operations -/

/-- R151, R130: RND_F at position p, which is round j = p, with M[j]. The ROM values are the spec's from general knowledge
(log entry 14). -/
def Obligations.RndFCompletes : Prop :=
  ∀ (s : State) (pos : BitVec 4), ∃ t, exec (.rndF pos) s = .next t ∧
    t.w.a = s.w.d ∧ t.w.c = s.w.b ∧ t.w.d = s.w.c ∧
    t.w.b = s.w.b + rotl32 (((s.w.b &&& s.w.c) ||| (~~~s.w.b &&& s.w.d)) + s.w.a +
      kRom (BitVec.ofNat 6 pos.toNat) + s.m[pos.toNat]'(pos.isLt)) (rRom (BitVec.ofNat 6 pos.toNat))

/-- R152, R131: RND_G at position p, which is round j = 16 + p, with M[(5j + 1) mod 16]. The ROM values are the spec's
from general knowledge (log entry 14). -/
def Obligations.RndGCompletes : Prop :=
  ∀ (s : State) (pos : BitVec 4), ∃ t, exec (.rndG pos) s = .next t ∧
    t.w.a = s.w.d ∧ t.w.c = s.w.b ∧ t.w.d = s.w.c ∧
    t.w.b = s.w.b + rotl32 (((s.w.d &&& s.w.b) ||| (~~~s.w.d &&& s.w.c)) + s.w.a +
      kRom (BitVec.ofNat 6 (16 + pos.toNat)) +
      s.m[(5 * (16 + pos.toNat) + 1) % 16]'(Nat.mod_lt _ (by decide))) (rRom (BitVec.ofNat 6 (16 + pos.toNat)))

/-- R153, R132: RND_H at position p, which is round j = 32 + p, with M[(3j + 5) mod 16]. The ROM values are the spec's
from general knowledge (log entry 14). -/
def Obligations.RndHCompletes : Prop :=
  ∀ (s : State) (pos : BitVec 4), ∃ t, exec (.rndH pos) s = .next t ∧
    t.w.a = s.w.d ∧ t.w.c = s.w.b ∧ t.w.d = s.w.c ∧
    t.w.b = s.w.b + rotl32 ((s.w.b ^^^ s.w.c ^^^ s.w.d) + s.w.a +
      kRom (BitVec.ofNat 6 (32 + pos.toNat)) +
      s.m[(3 * (32 + pos.toNat) + 5) % 16]'(Nat.mod_lt _ (by decide))) (rRom (BitVec.ofNat 6 (32 + pos.toNat)))

/-- R154, R133: RND_I at position p, which is round j = 48 + p, with M[7j mod 16]. The ROM values are the spec's from
general knowledge (log entry 14). -/
def Obligations.RndICompletes : Prop :=
  ∀ (s : State) (pos : BitVec 4), ∃ t, exec (.rndI pos) s = .next t ∧
    t.w.a = s.w.d ∧ t.w.c = s.w.b ∧ t.w.d = s.w.c ∧
    t.w.b = s.w.b + rotl32 ((s.w.c ^^^ (s.w.b ||| ~~~s.w.d)) + s.w.a +
      kRom (BitVec.ofNat 6 (48 + pos.toNat)) +
      s.m[(7 * (48 + pos.toNat)) % 16]'(Nat.mod_lt _ (by decide))) (rRom (BitVec.ofNat 6 (48 + pos.toNat)))

/-- R150, R44: a round operation writes W and nothing else; no flag is written. -/
def Obligations.RoundOperationsChangeOnlyW : Prop :=
  ∀ (s t : State) (pos : BitVec 4) (i : Instr), i ∈ [.rndF pos, .rndG pos, .rndH pos, .rndI pos] → exec i s = .next t →
    t.status = s.status ∧ s.keepsRegisters t ∧ s.keepsSequencer t ∧ t.h = s.h ∧ t.m = s.m ∧ s.keepsMemory t

/-- R14, R136: the rotation is exact rotation of the bits: bit i of x comes to bit (i + n) mod 32, for the amounts 0 to 31;
the R ROM holds amounts from 4 to 23 only. R141, R142: the two ROMs hold, at each address, the value of the spec's table,
which the spec gives from general knowledge and makes normative (log entry 14). -/
def Obligations.RotationAndRomTables : Prop :=
  (∀ (x : Word) (n i : Nat), n < 32 → i < 32 → (rotl32 x n).getLsbD ((i + n) % 32) = x.getLsbD i) ∧
  (∀ j : BitVec 6, 4 ≤ rRom j ∧ rRom j ≤ 23) ∧
  ((List.range 64).map fun j => kRom (BitVec.ofNat 6 j)) =
      [0xd76aa478#32, 0xe8c7b756#32, 0x242070db#32, 0xc1bdceee#32, 0xf57c0faf#32, 0x4787c62a#32, 0xa8304613#32, 0xfd469501#32,
       0x698098d8#32, 0x8b44f7af#32, 0xffff5bb1#32, 0x895cd7be#32, 0x6b901122#32, 0xfd987193#32, 0xa679438e#32, 0x49b40821#32] ++
      [0xf61e2562#32, 0xc040b340#32, 0x265e5a51#32, 0xe9b6c7aa#32, 0xd62f105d#32, 0x02441453#32, 0xd8a1e681#32, 0xe7d3fbc8#32,
       0x21e1cde6#32, 0xc33707d6#32, 0xf4d50d87#32, 0x455a14ed#32, 0xa9e3e905#32, 0xfcefa3f8#32, 0x676f02d9#32, 0x8d2a4c8a#32] ++
      [0xfffa3942#32, 0x8771f681#32, 0x6d9d6122#32, 0xfde5380c#32, 0xa4beea44#32, 0x4bdecfa9#32, 0xf6bb4b60#32, 0xbebfbc70#32,
       0x289b7ec6#32, 0xeaa127fa#32, 0xd4ef3085#32, 0x04881d05#32, 0xd9d4d039#32, 0xe6db99e5#32, 0x1fa27cf8#32, 0xc4ac5665#32] ++
      [0xf4292244#32, 0x432aff97#32, 0xab9423a7#32, 0xfc93a039#32, 0x655b59c3#32, 0x8f0ccc92#32, 0xffeff47d#32, 0x85845dd1#32,
       0x6fa87e4f#32, 0xfe2ce6e0#32, 0xa3014314#32, 0x4e0811a1#32, 0xf7537e82#32, 0xbd3af235#32, 0x2ad7d2bb#32, 0xeb86d391#32] ∧
  ((List.range 64).map fun j => rRom (BitVec.ofNat 6 j)) =
      [7, 12, 17, 22, 7, 12, 17, 22, 7, 12, 17, 22, 7, 12, 17, 22] ++
      [5, 9, 14, 20, 5, 9, 14, 20, 5, 9, 14, 20, 5, 9, 14, 20] ++
      [4, 11, 16, 23, 4, 11, 16, 23, 4, 11, 16, 23, 4, 11, 16, 23] ++
      [6, 10, 15, 21, 6, 10, 15, 21, 6, 10, 15, 21, 6, 10, 15, 21]

/-- R135: within each group of 16 rounds the message-word index takes each value from 0 to 15. -/
def Obligations.EveryWordUsedInEachGroup : Prop :=
  ∀ k : BitVec 4,
    (∃ pos : BitVec 4, indexF (roundIndex 0b00#2 pos) = k) ∧ (∃ pos : BitVec 4, indexG (roundIndex 0b01#2 pos) = k) ∧
    (∃ pos : BitVec 4, indexH (roundIndex 0b10#2 pos) = k) ∧ (∃ pos : BitVec 4, indexI (roundIndex 0b11#2 pos) = k)

/-! ## The sequencer -/

/-- R170: in IDLE the block has no step of its own. -/
def Obligations.IdleStepCompletes : Prop := ∀ s : State, exec .phaseIdle s = .next s

/-- R101, R103, R104, R105, R106: the bytes of the padded stream of a digest of L = LLEN bytes, in both length-field
modes. -/
def Obligations.PaddedStreamBytes : Prop :=
  ∀ (s : State) (i : Nat),
    (i < s.llen.toNat → s.streamByte i = s.msgByte i) ∧
    (i = s.llen.toNat → s.streamByte i = .ok 0x80#8) ∧
    (s.llen.toNat + 1 ≤ i → i < paddedLen s.llen.toNat - 8 → s.streamByte i = .ok 0x00#8) ∧
    (paddedLen s.llen.toNat - 8 ≤ i → i < paddedLen s.llen.toNat → s.params.lenMode = .full64 →
      s.streamByte i = .ok (BitVec.ofNat 8 (8 * s.llen.toNat % 2 ^ 64 / 256 ^ (i - (paddedLen s.llen.toNat - 8))))) ∧
    (paddedLen s.llen.toNat - 8 ≤ i → i < paddedLen s.llen.toNat → s.params.lenMode = .low32 →
      s.streamByte i = .ok (BitVec.ofNat 8 (8 * s.llen.toNat % 2 ^ 32 / 256 ^ (i - (paddedLen s.llen.toNat - 8)))))

/-- R100, R108: the padded length is a multiple of 64, at least 9 more than L and at most 72 more; NBLK is its 64th part;
the four ranges of the stream do not overlap, and the terminator's block is NBLK - 1 when L mod 64 <= 55, NBLK - 2
otherwise. -/
def Obligations.PaddedLengthLaws : Prop :=
  ∀ len : Nat, paddedLen len % 64 = 0 ∧ len + 9 ≤ paddedLen len ∧ paddedLen len - (len + 9) ≤ 63 ∧
    blockCount len * 64 = paddedLen len ∧ 1 ≤ blockCount len ∧
    (len % 64 ≤ 55 → len / 64 + 1 = blockCount len) ∧ (56 ≤ len % 64 → len / 64 + 2 = blockCount len)

/-- R172, R121, R122: LOAD completes where every message byte of its block has been read early or is readable. Byte n of
the block is then bits [8 (n mod 4) + 7 : 8 (n mod 4)] of M[n div 4], W holds H, j is 0 and the phase is ROUND. That a
byte can have been read early is held as log entry 7 says. -/
def Obligations.LoadCompletes : Prop :=
  ∀ s : State, (∀ i, i < s.llen.toNat → i / 64 = s.blk → ∃ b, s.msgByte i = .ok b) →
    ∃ t, exec .phaseLoad s = .next t ∧ t.w = s.h ∧ t.j = 0#6 ∧ t.phase = 0b010#3 ∧
      ∀ n (h : n < 64), s.streamByte (64 * s.blk + n) = .ok ((t.m[n / 4]'(by omega)).extractLsb' (8 * (n % 4)) 8)

/-- R172, R64: what LOAD leaves: every other register, STATUS, and every byte of input memory; and a message byte of a
later block that was read early keeps its value. How bytes read early are held is the model's choice (log entry 7). -/
def Obligations.LoadChangesNothingElse : Prop :=
  ∀ s t : State, exec .phaseLoad s = .next t →
    t.status = s.status ∧ s.keepsRegisters t ∧ t.h = s.h ∧ t.blk = s.blk ∧ t.nblk = s.nblk ∧ t.lsrc = s.lsrc ∧
    t.llen = s.llen ∧ s.keepsMemory t ∧
    (∀ i, s.blk < i / 64 → t.msgByte i = s.msgByte i)

/-- R63, R256: a LOAD with a message byte of its block that is neither read nor readable does not complete: it is the
fault INPUT_UNREADABLE of an address whose read is not admitted. No address at or above 2^ADDR_W is admitted. How
memory is held, and which of several addresses the fault names, are the model's choice (log entries 6, 7). -/
def Obligations.UnreadableInputFaults : Prop :=
  (∀ (s : State) (i : Nat), i < s.llen.toNat → i / 64 = s.blk → (∀ b, s.msgByte i ≠ .ok b) →
    ∃ k, k < s.llen.toNat ∧ k / 64 = s.blk ∧ exec .phaseLoad s = .fault (.inputUnreadable (s.lsrc.toNat + k)) ∧
      ∀ b, s.memRead (s.lsrc.toNat + k) ≠ .ok b) ∧
  (∀ (s : State) (a : Nat) (b : Byte), s.memRead a = .ok b ↔ a < 2 ^ s.params.addrW ∧ s.memByte a = some b)

/-- R63, R172: a block with no message bytes is loaded whatever input memory holds and wherever LSRC points. -/
def Obligations.BlockWithoutMessageLoads : Prop :=
  ∀ s : State, s.llen.toNat ≤ 64 * s.blk → ∃ t, exec .phaseLoad s = .next t

/-- R173: the ROUND step performs the round operation that j decodes to, then moves to ACCUM after round 63 and else
adds 1 to j; it writes W and either j or PHASE. -/
def Obligations.RoundStepCompletes : Prop :=
  ∀ s : State, ∃ t u, exec .phaseRound s = .next t ∧ exec (decodeRound s.j) s = .next u ∧ t.w = u.w ∧
    (s.j.toNat = 63 → t.phase = 0b011#3 ∧ t.j = s.j) ∧
    (s.j.toNat < 63 → t.phase = s.phase ∧ t.j.toNat = s.j.toNat + 1) ∧
    t.status = s.status ∧ s.keepsRegisters t ∧ t.h = s.h ∧ t.m = s.m ∧ t.blk = s.blk ∧ t.nblk = s.nblk ∧
    t.lsrc = s.lsrc ∧ t.llen = s.llen ∧ s.keepsMemory t

/-- R174: ACCUM adds W into H with 32-bit wrap-around, counts the block, and moves to FINAL after the last block and else
to LOAD; it writes nothing else. -/
def Obligations.AccumCompletes : Prop :=
  ∀ s : State, ∃ t, exec .phaseAccum s = .next t ∧
    t.h.a.toNat = (s.h.a.toNat + s.w.a.toNat) % 2 ^ 32 ∧ t.h.b.toNat = (s.h.b.toNat + s.w.b.toNat) % 2 ^ 32 ∧
    t.h.c.toNat = (s.h.c.toNat + s.w.c.toNat) % 2 ^ 32 ∧ t.h.d.toNat = (s.h.d.toNat + s.w.d.toNat) % 2 ^ 32 ∧
    t.blk = s.blk + 1 ∧
    (s.blk + 1 = s.nblk → t.phase = 0b100#3) ∧ (s.blk + 1 ≠ s.nblk → t.phase = 0b001#3) ∧
    t.status = s.status ∧ s.keepsRegisters t ∧ t.w = s.w ∧ t.m = s.m ∧ t.j = s.j ∧ t.nblk = s.nblk ∧ t.lsrc = s.lsrc ∧
    t.llen = s.llen ∧ s.keepsMemory t

/-- R176: FINAL packs H into the two digest registers, the lower-numbered word in the low half, clears BUSY, sets DONE
and moves to IDLE; OVERRUN and the rest are left. Nothing is said of M, whose content R27 leaves unspecified then. -/
def Obligations.FinalCompletes : Prop :=
  ∀ s : State, ∃ t, exec .phaseFinal s = .next t ∧
    t.digestLo.toNat = s.h.a.toNat + 2 ^ 32 * s.h.b.toNat ∧ t.digestHi.toNat = s.h.c.toNat + 2 ^ 32 * s.h.d.toNat ∧
    t.status.busy = false ∧ t.status.done = true ∧ t.phase = 0b000#3 ∧
    t.status.overrun = s.status.overrun ∧ t.status.err = s.status.err ∧ t.status.errCode = s.status.errCode ∧
    t.srcAddr = s.srcAddr ∧ t.length = s.length ∧ t.h = s.h ∧ t.w = s.w ∧ t.j = s.j ∧ t.blk = s.blk ∧ t.nblk = s.nblk ∧
    t.lsrc = s.lsrc ∧ t.llen = s.llen ∧ s.keepsMemory t

/-! ## Rules about the whole machine -/

/-- R39: only FINAL and the reset action write DIGEST_LO and DIGEST_HI. -/
def Obligations.DigestRegistersOnlyByFinalOrReset : Prop :=
  ∀ (i : Instr) (s t : State), exec i s = .next t → t.digestLo ≠ s.digestLo ∨ t.digestHi ≠ s.digestHi →
    i = .phaseFinal ∨ i = .softReset ∨ i = .wrCmd 0x0000000000000002#64

/-- R20, R26: H is written only by START, ACCUM and the reset action, and LSRC, LLEN and NBLK only by START and the reset
action; START is inside a DIGEST written while idle. -/
def Obligations.ChainingRegistersWriters : Prop :=
  ∀ (i : Instr) (s t : State), exec i s = .next t →
    (t.h ≠ s.h → i = .phaseAccum ∨ i = .softReset ∨ i = .wrCmd 0x0000000000000002#64 ∨
      (s.status.busy = false ∧ (i = .digest ∨ i = .wrCmd 0x0000000000000001#64))) ∧
    (t.lsrc ≠ s.lsrc ∨ t.llen ≠ s.llen ∨ t.nblk ≠ s.nblk → i = .softReset ∨ i = .wrCmd 0x0000000000000002#64 ∨
      (s.status.busy = false ∧ (i = .digest ∨ i = .wrCmd 0x0000000000000001#64)))

/-- R36: OVERRUN is sticky: an operation that clears it is START or the reset action. -/
def Obligations.OverrunIsSticky : Prop :=
  ∀ (i : Instr) (s t : State), exec i s = .next t → s.status.overrun = true → t.status.overrun = false →
    i = .softReset ∨ i = .wrCmd 0x0000000000000002#64 ∨
      (s.status.busy = false ∧ (i = .digest ∨ i = .wrCmd 0x0000000000000001#64) ∧ t.status.busy = true)

/-- R61, R15: no operation of the block changes a byte of input memory. -/
def Obligations.InputMemoryNeverWritten : Prop :=
  ∀ (i : Instr) (s t : State), exec i s = .next t → ∀ a, t.memByte a = s.memByte a

/-- The fields that are the model's own way of holding the outside world (log entries 1, 2, 4, 5, 7, 8): no operation
changes the parameters, the platform's regions or the turns to come; the read-data lines change in a read only, the
count of free values in the reset action only, and the bytes read early in LOAD, START and the reset action only. -/
def Obligations.ModelFieldsFrame : Prop :=
  ∀ (i : Instr) (s t : State), exec i s = .next t →
    s.keepsOutside t ∧
    (t.rdata ≠ s.rdata → ∃ d, i ∈ registerReads d) ∧
    (t.draws ≠ s.draws → i = .softReset ∨ i = .wrCmd 0x0000000000000002#64) ∧
    (t.taken ≠ s.taken → i = .phaseLoad ∨ i = .softReset ∨ i = .wrCmd 0x0000000000000002#64 ∨
      (s.status.busy = false ∧ (i = .digest ∨ i = .wrCmd 0x0000000000000001#64)))

/-- R23: the moves of PHASE, in a state that meets the invariant. A step moves PHASE only so, or leaves it. -/
def Obligations.PhaseMoves : Prop :=
  ∀ s t : State, s.Inv → step s = .next t → t.phase ≠ s.phase →
    (s.phase = 0b000#3 ∧ t.phase = 0b001#3) ∨
    (s.phase = 0b001#3 ∧ t.phase = 0b010#3) ∨
    (s.phase = 0b010#3 ∧ t.phase = 0b011#3 ∧ s.j = 63#6) ∨
    (s.phase = 0b011#3 ∧ t.phase = 0b001#3 ∧ s.blk + 1 < s.nblk) ∨
    (s.phase = 0b011#3 ∧ t.phase = 0b100#3 ∧ s.blk + 1 = s.nblk) ∨
    (s.phase = 0b100#3 ∧ t.phase = 0b000#3 ∧ t.status.done = true) ∨
    (t.phase = 0b000#3 ∧ t.status = Status.zero ∧ t.digestLo = 0#64 ∧ t.digestHi = 0#64)

/-- R51 with R25, R35, R36, R64: every step keeps the invariant, from every state that meets it. The canonical form of
memory and of the bytes read early is the model's (log entries 6, 7). -/
def Obligations.StepKeepsInvariant : Prop :=
  ∀ s t : State, s.Inv → step s = .next t → t.Inv

/-- R50, R51: the invariant holds right after reset. Where the spec gives no reset value the model names one (log entries
1 to 8). -/
def Obligations.ResetMeetsInvariant : Prop := State.reset.Inv

/-- R50, R280: what reset leaves, where the spec gives it: PHASE IDLE, STATUS, SRC_ADDR, LENGTH and the digest registers
0; and the block stays so until a turn comes (R281). That no turn is to come at reset is the model's choice (log entry
1). -/
def Obligations.ResetValues : Prop :=
  State.reset.phase = 0b000#3 ∧ State.reset.status.word = 0#64 ∧ State.reset.srcAddr = 0#64 ∧
  State.reset.length = 0#64 ∧ State.reset.digestLo = 0#64 ∧ State.reset.digestHi = 0#64 ∧
  step State.reset = .next State.reset

/-- R213: the nine values that a read of STATUS can give, in a state that meets the invariant. BUSY and DONE are never
both set. The value is put into the model's field rdata (log entry 5). -/
def Obligations.StatusValues : Prop :=
  ∀ (s : State) (d : DWord), s.Inv → ∃ t, exec (.rdStatus d) s = .next t ∧
    t.rdata ∈ [0x0#64, 0x1#64, 0x2#64, 0x14#64, 0x24#64, 0x9#64, 0xA#64, 0x1C#64, 0x2C#64]

/-! ## The digest -/

/-- R180, R171: an accepted DIGEST over readable memory that holds a message begins the digest of that message. How a
region with read side effects is known is the model's choice (log entry 8). -/
def Obligations.StartBeginsDigest : Prop :=
  ∀ (s : State) (msg : List Byte), s.status.busy = false → s.length.toNat = msg.length →
    s.holdsMessage s.srcAddr.toNat msg → (s.params.strict = true → s.length.toNat ≤ lengthLimit s.params.lenMode) →
    s.sideEffectFree s.srcAddr.toNat s.length.toNat →
    ∃ t, exec .digest s = .next t ∧ t.Digesting msg ∧ t.phase = 0b001#3 ∧ t.blk = 0

/-- R90, R282, R228, R287: the three transactions of `HASH a, l`, issued while the block is idle, begin the digest of the
message that input memory holds at a; the turns after them are left. The instance is not strict and the message has no
read side effects. The list of turns, and how a region with read side effects is known, are the model's choice (log
entries 1, 8). -/
def Obligations.HashBeginsDigest : Prop :=
  ∀ (s : State) (msg : List Byte) (a l : DWord) (rest : List Turn), s.status.busy = false →
    l.toNat = msg.length → s.holdsMessage a.toNat msg → s.params.strict = false →
    s.sideEffectFree a.toNat l.toNat → s.order = (hashTransactions a l).map Turn.host ++ rest →
    ∃ t, Sys2Proof.core.run 3 s = .next t ∧ t.Digesting msg ∧ t.phase = 0b001#3 ∧ t.blk = 0 ∧ t.order = rest

/-- R180, R26, R283: whatever turn comes, short of a reset, SOFT_RESET or a change of a message byte, a step of a block
that is computing the digest of a message completes, and the block is still computing it or has just finished with the
digest of that message in its registers, DONE set and BUSY clear. The list of turns is the model's choice (log entry
1). -/
def Obligations.StepAdvancesDigest : Prop :=
  ∀ (s : State) (msg : List Byte), s.Digesting msg →
    (∀ turn rest, s.order = turn :: rest → s.leavesDigest turn) →
    ∃ t, step s = .next t ∧ t.params = s.params ∧
      (t.Digesting msg ∨
        (s.phase = 0b100#3 ∧ t.phase = 0b000#3 ∧ t.status.busy = false ∧ t.status.done = true ∧
          t.digestLo = digestOfLo s.params.lenMode msg ∧ t.digestHi = digestOfHi s.params.lenMode msg))

/-- R177, R180: with the engine moving alone, the digest of a message that is about to load its first block takes exactly
66 NBLK + 1 steps, and then the digest registers hold digest(MSG) and a read of DIGEST64 gives digest64(MSG). That the
engine moves where no turn is left is the model's choice (log entry 1); the value read is put into the model's field rdata
(log entry 5). -/
def Obligations.DigestTakesExactSteps : Prop :=
  ∀ (s : State) (msg : List Byte) (d : DWord), s.Digesting msg → s.phase = 0b001#3 → s.blk = 0 → s.order = [] →
    (∀ k, k ≤ 66 * s.nblk → ∃ u, Sys2Proof.core.run k s = .next u ∧ u.status.busy = true) ∧
    ∃ t, Sys2Proof.core.run (66 * s.nblk + 1) s = .next t ∧
      t.status.busy = false ∧ t.status.done = true ∧
      t.digestLo = digestOfLo s.params.lenMode msg ∧ t.digestHi = digestOfHi s.params.lenMode msg ∧
      exec (.rdDigest64 d) t = .next { t with rdata := digest64Of s.params.lenMode msg }

/-- R106, R2: below 2^29 bytes the two length-field modes give the same digest. -/
def Obligations.ModesAgreeBelowLimit : Prop :=
  ∀ msg : List Byte, msg.length < 2 ^ 29 →
    digestOfLo .full64 msg = digestOfLo .low32 msg ∧ digestOfHi .full64 msg = digestOfHi .low32 msg
end

