-- ==== Sys2Proof/Laws/Decode.lean ====
section
/-! SUPPORT. The fields of an encoded value come back as they were put in. -/

namespace Sys2Proof

@[simp] theorem busControl_busWord (c : BitVec 4) (d : DWord) : busControl (busWord c d) = c :=
  BitVec.extractLsb'_append_eq_left

@[simp] theorem busData_busWord (c : BitVec 4) (d : DWord) : busData (busWord c d) = d :=
  BitVec.extractLsb'_append_eq_right

/-- A transaction is its control and its data. -/
theorem busWord_eta (w : BusWord) : busWord (busControl w) (busData w) = w := by
  unfold busWord busControl busData
  exact BitVec.extractLsb'_append_extractLsb' (w := 4) (len := 64)

@[simp] theorem roundSel_roundIndex : ∀ (sel : BitVec 2) (pos : BitVec 4), roundSel (roundIndex sel pos) = sel := by
  decide

@[simp] theorem roundPos_roundIndex : ∀ (sel : BitVec 2) (pos : BitVec 4), roundPos (roundIndex sel pos) = pos := by
  decide

/-- A round index is its SEL and its POS. -/
theorem roundIndex_eta : ∀ j : BitVec 6, roundIndex (roundSel j) (roundPos j) = j := by decide

/-- The 16 control values, each by its WE and IDX bits. -/
theorem decodeBus_busWord (c : BitVec 4) (d : DWord) :
    decodeBus (busWord c d) = if c.getLsbD 3 then decodeWrite (c.extractLsb' 0 3) d else decodeRead (c.extractLsb' 0 3) d := by
  simp [decodeBus]

/-- The three commands are not reserved values, and every other value is one (R84, R85). -/
theorem reservedValue_iff (v : DWord) : reservedValue v = true ↔ v ≠ 0#64 ∧ v ≠ 1#64 ∧ v ≠ 2#64 := by
  have e1 : (v.extractLsb' 8 56).toNat = v.toNat / 256 := by
    simp [BitVec.extractLsb'_toNat, Nat.shiftRight_eq_div_pow]; omega
  have e2 : (v.extractLsb' 0 8).toNat = v.toNat % 256 := by simp [BitVec.extractLsb'_toNat]
  have hz : (0 : BitVec 56).toNat = 0 := rfl
  simp only [reservedValue, Bool.or_eq_true, bne_iff_ne, ne_eq, decide_eq_true_eq, ← BitVec.toNat_inj, e1, e2,
    BitVec.toNat_ofNat, hz]
  omega

theorem decodeCmd_reserved {v : DWord} (h : reservedValue v = true) : decodeCmd v = .reservedCmd v := by
  obtain ⟨h0, h1, h2⟩ := (reservedValue_iff v).1 h
  simp [decodeCmd, h0, h1, h2]

end Sys2Proof
end

