-- ==== Sys2Proof/Laws/State.lean ====
section
/-! SUPPORT. One lemma per field per update of State, so that no proof unfolds an update. -/

namespace Sys2Proof.Machine

section Updates

variable (s : State)

/-! ### State.turnsLeft -/

@[simp] theorem State.turnsLeft_params (rest : List Turn) : (s.turnsLeft rest).params = s.params := rfl
@[simp] theorem State.turnsLeft_status (rest : List Turn) : (s.turnsLeft rest).status = s.status := rfl
@[simp] theorem State.turnsLeft_srcAddr (rest : List Turn) : (s.turnsLeft rest).srcAddr = s.srcAddr := rfl
@[simp] theorem State.turnsLeft_length (rest : List Turn) : (s.turnsLeft rest).length = s.length := rfl
@[simp] theorem State.turnsLeft_digestLo (rest : List Turn) : (s.turnsLeft rest).digestLo = s.digestLo := rfl
@[simp] theorem State.turnsLeft_digestHi (rest : List Turn) : (s.turnsLeft rest).digestHi = s.digestHi := rfl
@[simp] theorem State.turnsLeft_phase (rest : List Turn) : (s.turnsLeft rest).phase = s.phase := rfl
@[simp] theorem State.turnsLeft_j (rest : List Turn) : (s.turnsLeft rest).j = s.j := rfl
@[simp] theorem State.turnsLeft_blk (rest : List Turn) : (s.turnsLeft rest).blk = s.blk := rfl
@[simp] theorem State.turnsLeft_nblk (rest : List Turn) : (s.turnsLeft rest).nblk = s.nblk := rfl
@[simp] theorem State.turnsLeft_lsrc (rest : List Turn) : (s.turnsLeft rest).lsrc = s.lsrc := rfl
@[simp] theorem State.turnsLeft_llen (rest : List Turn) : (s.turnsLeft rest).llen = s.llen := rfl
@[simp] theorem State.turnsLeft_h (rest : List Turn) : (s.turnsLeft rest).h = s.h := rfl
@[simp] theorem State.turnsLeft_w (rest : List Turn) : (s.turnsLeft rest).w = s.w := rfl
@[simp] theorem State.turnsLeft_m (rest : List Turn) : (s.turnsLeft rest).m = s.m := rfl
@[simp] theorem State.turnsLeft_rdata (rest : List Turn) : (s.turnsLeft rest).rdata = s.rdata := rfl
@[simp] theorem State.turnsLeft_mem (rest : List Turn) : (s.turnsLeft rest).mem = s.mem := rfl
@[simp] theorem State.turnsLeft_devices (rest : List Turn) : (s.turnsLeft rest).devices = s.devices := rfl
@[simp] theorem State.turnsLeft_taken (rest : List Turn) : (s.turnsLeft rest).taken = s.taken := rfl
@[simp] theorem State.turnsLeft_order (rest : List Turn) : (s.turnsLeft rest).order = rest := rfl
@[simp] theorem State.turnsLeft_draws (rest : List Turn) : (s.turnsLeft rest).draws = s.draws := rfl

/-! ### State.take -/

@[simp] theorem State.take_params (i : Nat) (b : Byte) : (s.take i b).params = s.params := rfl
@[simp] theorem State.take_status (i : Nat) (b : Byte) : (s.take i b).status = s.status := rfl
@[simp] theorem State.take_srcAddr (i : Nat) (b : Byte) : (s.take i b).srcAddr = s.srcAddr := rfl
@[simp] theorem State.take_length (i : Nat) (b : Byte) : (s.take i b).length = s.length := rfl
@[simp] theorem State.take_digestLo (i : Nat) (b : Byte) : (s.take i b).digestLo = s.digestLo := rfl
@[simp] theorem State.take_digestHi (i : Nat) (b : Byte) : (s.take i b).digestHi = s.digestHi := rfl
@[simp] theorem State.take_phase (i : Nat) (b : Byte) : (s.take i b).phase = s.phase := rfl
@[simp] theorem State.take_j (i : Nat) (b : Byte) : (s.take i b).j = s.j := rfl
@[simp] theorem State.take_blk (i : Nat) (b : Byte) : (s.take i b).blk = s.blk := rfl
@[simp] theorem State.take_nblk (i : Nat) (b : Byte) : (s.take i b).nblk = s.nblk := rfl
@[simp] theorem State.take_lsrc (i : Nat) (b : Byte) : (s.take i b).lsrc = s.lsrc := rfl
@[simp] theorem State.take_llen (i : Nat) (b : Byte) : (s.take i b).llen = s.llen := rfl
@[simp] theorem State.take_h (i : Nat) (b : Byte) : (s.take i b).h = s.h := rfl
@[simp] theorem State.take_w (i : Nat) (b : Byte) : (s.take i b).w = s.w := rfl
@[simp] theorem State.take_m (i : Nat) (b : Byte) : (s.take i b).m = s.m := rfl
@[simp] theorem State.take_rdata (i : Nat) (b : Byte) : (s.take i b).rdata = s.rdata := rfl
@[simp] theorem State.take_mem (i : Nat) (b : Byte) : (s.take i b).mem = s.mem := rfl
@[simp] theorem State.take_devices (i : Nat) (b : Byte) : (s.take i b).devices = s.devices := rfl
@[simp] theorem State.take_taken (i : Nat) (b : Byte) : (s.take i b).taken = Memory.write s.taken i b := rfl
@[simp] theorem State.take_order (i : Nat) (b : Byte) : (s.take i b).order = s.order := rfl
@[simp] theorem State.take_draws (i : Nat) (b : Byte) : (s.take i b).draws = s.draws := rfl

/-! ### State.place -/

@[simp] theorem State.place_params (a : Nat) (v : Byte) : (s.place a v).params = s.params := rfl
@[simp] theorem State.place_status (a : Nat) (v : Byte) : (s.place a v).status = s.status := rfl
@[simp] theorem State.place_srcAddr (a : Nat) (v : Byte) : (s.place a v).srcAddr = s.srcAddr := rfl
@[simp] theorem State.place_length (a : Nat) (v : Byte) : (s.place a v).length = s.length := rfl
@[simp] theorem State.place_digestLo (a : Nat) (v : Byte) : (s.place a v).digestLo = s.digestLo := rfl
@[simp] theorem State.place_digestHi (a : Nat) (v : Byte) : (s.place a v).digestHi = s.digestHi := rfl
@[simp] theorem State.place_phase (a : Nat) (v : Byte) : (s.place a v).phase = s.phase := rfl
@[simp] theorem State.place_j (a : Nat) (v : Byte) : (s.place a v).j = s.j := rfl
@[simp] theorem State.place_blk (a : Nat) (v : Byte) : (s.place a v).blk = s.blk := rfl
@[simp] theorem State.place_nblk (a : Nat) (v : Byte) : (s.place a v).nblk = s.nblk := rfl
@[simp] theorem State.place_lsrc (a : Nat) (v : Byte) : (s.place a v).lsrc = s.lsrc := rfl
@[simp] theorem State.place_llen (a : Nat) (v : Byte) : (s.place a v).llen = s.llen := rfl
@[simp] theorem State.place_h (a : Nat) (v : Byte) : (s.place a v).h = s.h := rfl
@[simp] theorem State.place_w (a : Nat) (v : Byte) : (s.place a v).w = s.w := rfl
@[simp] theorem State.place_m (a : Nat) (v : Byte) : (s.place a v).m = s.m := rfl
@[simp] theorem State.place_rdata (a : Nat) (v : Byte) : (s.place a v).rdata = s.rdata := rfl
@[simp] theorem State.place_mem (a : Nat) (v : Byte) : (s.place a v).mem = Memory.write s.mem a v := rfl
@[simp] theorem State.place_devices (a : Nat) (v : Byte) : (s.place a v).devices = s.devices := rfl
@[simp] theorem State.place_taken (a : Nat) (v : Byte) : (s.place a v).taken = s.taken := rfl
@[simp] theorem State.place_order (a : Nat) (v : Byte) : (s.place a v).order = s.order := rfl
@[simp] theorem State.place_draws (a : Nat) (v : Byte) : (s.place a v).draws = s.draws := rfl

/-! ### State.withdraw -/

@[simp] theorem State.withdraw_params (a : Nat) : (s.withdraw a).params = s.params := rfl
@[simp] theorem State.withdraw_status (a : Nat) : (s.withdraw a).status = s.status := rfl
@[simp] theorem State.withdraw_srcAddr (a : Nat) : (s.withdraw a).srcAddr = s.srcAddr := rfl
@[simp] theorem State.withdraw_length (a : Nat) : (s.withdraw a).length = s.length := rfl
@[simp] theorem State.withdraw_digestLo (a : Nat) : (s.withdraw a).digestLo = s.digestLo := rfl
@[simp] theorem State.withdraw_digestHi (a : Nat) : (s.withdraw a).digestHi = s.digestHi := rfl
@[simp] theorem State.withdraw_phase (a : Nat) : (s.withdraw a).phase = s.phase := rfl
@[simp] theorem State.withdraw_j (a : Nat) : (s.withdraw a).j = s.j := rfl
@[simp] theorem State.withdraw_blk (a : Nat) : (s.withdraw a).blk = s.blk := rfl
@[simp] theorem State.withdraw_nblk (a : Nat) : (s.withdraw a).nblk = s.nblk := rfl
@[simp] theorem State.withdraw_lsrc (a : Nat) : (s.withdraw a).lsrc = s.lsrc := rfl
@[simp] theorem State.withdraw_llen (a : Nat) : (s.withdraw a).llen = s.llen := rfl
@[simp] theorem State.withdraw_h (a : Nat) : (s.withdraw a).h = s.h := rfl
@[simp] theorem State.withdraw_w (a : Nat) : (s.withdraw a).w = s.w := rfl
@[simp] theorem State.withdraw_m (a : Nat) : (s.withdraw a).m = s.m := rfl
@[simp] theorem State.withdraw_rdata (a : Nat) : (s.withdraw a).rdata = s.rdata := rfl
@[simp] theorem State.withdraw_mem (a : Nat) : (s.withdraw a).mem = Memory.erase s.mem a := rfl
@[simp] theorem State.withdraw_devices (a : Nat) : (s.withdraw a).devices = s.devices := rfl
@[simp] theorem State.withdraw_taken (a : Nat) : (s.withdraw a).taken = s.taken := rfl
@[simp] theorem State.withdraw_order (a : Nat) : (s.withdraw a).order = s.order := rfl
@[simp] theorem State.withdraw_draws (a : Nat) : (s.withdraw a).draws = s.draws := rfl

/-! ### State.answer -/

@[simp] theorem State.answer_params (v : DWord) : (s.answer v).params = s.params := rfl
@[simp] theorem State.answer_status (v : DWord) : (s.answer v).status = s.status := rfl
@[simp] theorem State.answer_srcAddr (v : DWord) : (s.answer v).srcAddr = s.srcAddr := rfl
@[simp] theorem State.answer_length (v : DWord) : (s.answer v).length = s.length := rfl
@[simp] theorem State.answer_digestLo (v : DWord) : (s.answer v).digestLo = s.digestLo := rfl
@[simp] theorem State.answer_digestHi (v : DWord) : (s.answer v).digestHi = s.digestHi := rfl
@[simp] theorem State.answer_phase (v : DWord) : (s.answer v).phase = s.phase := rfl
@[simp] theorem State.answer_j (v : DWord) : (s.answer v).j = s.j := rfl
@[simp] theorem State.answer_blk (v : DWord) : (s.answer v).blk = s.blk := rfl
@[simp] theorem State.answer_nblk (v : DWord) : (s.answer v).nblk = s.nblk := rfl
@[simp] theorem State.answer_lsrc (v : DWord) : (s.answer v).lsrc = s.lsrc := rfl
@[simp] theorem State.answer_llen (v : DWord) : (s.answer v).llen = s.llen := rfl
@[simp] theorem State.answer_h (v : DWord) : (s.answer v).h = s.h := rfl
@[simp] theorem State.answer_w (v : DWord) : (s.answer v).w = s.w := rfl
@[simp] theorem State.answer_m (v : DWord) : (s.answer v).m = s.m := rfl
@[simp] theorem State.answer_rdata (v : DWord) : (s.answer v).rdata = v := rfl
@[simp] theorem State.answer_mem (v : DWord) : (s.answer v).mem = s.mem := rfl
@[simp] theorem State.answer_devices (v : DWord) : (s.answer v).devices = s.devices := rfl
@[simp] theorem State.answer_taken (v : DWord) : (s.answer v).taken = s.taken := rfl
@[simp] theorem State.answer_order (v : DWord) : (s.answer v).order = s.order := rfl
@[simp] theorem State.answer_draws (v : DWord) : (s.answer v).draws = s.draws := rfl

/-! ### State.setSrcAddr -/

@[simp] theorem State.setSrcAddr_params (v : DWord) : (s.setSrcAddr v).params = s.params := rfl
@[simp] theorem State.setSrcAddr_status (v : DWord) : (s.setSrcAddr v).status = s.status := rfl
@[simp] theorem State.setSrcAddr_srcAddr (v : DWord) : (s.setSrcAddr v).srcAddr = v := rfl
@[simp] theorem State.setSrcAddr_length (v : DWord) : (s.setSrcAddr v).length = s.length := rfl
@[simp] theorem State.setSrcAddr_digestLo (v : DWord) : (s.setSrcAddr v).digestLo = s.digestLo := rfl
@[simp] theorem State.setSrcAddr_digestHi (v : DWord) : (s.setSrcAddr v).digestHi = s.digestHi := rfl
@[simp] theorem State.setSrcAddr_phase (v : DWord) : (s.setSrcAddr v).phase = s.phase := rfl
@[simp] theorem State.setSrcAddr_j (v : DWord) : (s.setSrcAddr v).j = s.j := rfl
@[simp] theorem State.setSrcAddr_blk (v : DWord) : (s.setSrcAddr v).blk = s.blk := rfl
@[simp] theorem State.setSrcAddr_nblk (v : DWord) : (s.setSrcAddr v).nblk = s.nblk := rfl
@[simp] theorem State.setSrcAddr_lsrc (v : DWord) : (s.setSrcAddr v).lsrc = s.lsrc := rfl
@[simp] theorem State.setSrcAddr_llen (v : DWord) : (s.setSrcAddr v).llen = s.llen := rfl
@[simp] theorem State.setSrcAddr_h (v : DWord) : (s.setSrcAddr v).h = s.h := rfl
@[simp] theorem State.setSrcAddr_w (v : DWord) : (s.setSrcAddr v).w = s.w := rfl
@[simp] theorem State.setSrcAddr_m (v : DWord) : (s.setSrcAddr v).m = s.m := rfl
@[simp] theorem State.setSrcAddr_rdata (v : DWord) : (s.setSrcAddr v).rdata = s.rdata := rfl
@[simp] theorem State.setSrcAddr_mem (v : DWord) : (s.setSrcAddr v).mem = s.mem := rfl
@[simp] theorem State.setSrcAddr_devices (v : DWord) : (s.setSrcAddr v).devices = s.devices := rfl
@[simp] theorem State.setSrcAddr_taken (v : DWord) : (s.setSrcAddr v).taken = s.taken := rfl
@[simp] theorem State.setSrcAddr_order (v : DWord) : (s.setSrcAddr v).order = s.order := rfl
@[simp] theorem State.setSrcAddr_draws (v : DWord) : (s.setSrcAddr v).draws = s.draws := rfl

/-! ### State.setLength -/

@[simp] theorem State.setLength_params (v : DWord) : (s.setLength v).params = s.params := rfl
@[simp] theorem State.setLength_status (v : DWord) : (s.setLength v).status = s.status := rfl
@[simp] theorem State.setLength_srcAddr (v : DWord) : (s.setLength v).srcAddr = s.srcAddr := rfl
@[simp] theorem State.setLength_length (v : DWord) : (s.setLength v).length = v := rfl
@[simp] theorem State.setLength_digestLo (v : DWord) : (s.setLength v).digestLo = s.digestLo := rfl
@[simp] theorem State.setLength_digestHi (v : DWord) : (s.setLength v).digestHi = s.digestHi := rfl
@[simp] theorem State.setLength_phase (v : DWord) : (s.setLength v).phase = s.phase := rfl
@[simp] theorem State.setLength_j (v : DWord) : (s.setLength v).j = s.j := rfl
@[simp] theorem State.setLength_blk (v : DWord) : (s.setLength v).blk = s.blk := rfl
@[simp] theorem State.setLength_nblk (v : DWord) : (s.setLength v).nblk = s.nblk := rfl
@[simp] theorem State.setLength_lsrc (v : DWord) : (s.setLength v).lsrc = s.lsrc := rfl
@[simp] theorem State.setLength_llen (v : DWord) : (s.setLength v).llen = s.llen := rfl
@[simp] theorem State.setLength_h (v : DWord) : (s.setLength v).h = s.h := rfl
@[simp] theorem State.setLength_w (v : DWord) : (s.setLength v).w = s.w := rfl
@[simp] theorem State.setLength_m (v : DWord) : (s.setLength v).m = s.m := rfl
@[simp] theorem State.setLength_rdata (v : DWord) : (s.setLength v).rdata = s.rdata := rfl
@[simp] theorem State.setLength_mem (v : DWord) : (s.setLength v).mem = s.mem := rfl
@[simp] theorem State.setLength_devices (v : DWord) : (s.setLength v).devices = s.devices := rfl
@[simp] theorem State.setLength_taken (v : DWord) : (s.setLength v).taken = s.taken := rfl
@[simp] theorem State.setLength_order (v : DWord) : (s.setLength v).order = s.order := rfl
@[simp] theorem State.setLength_draws (v : DWord) : (s.setLength v).draws = s.draws := rfl

/-! ### State.reject -/

@[simp] theorem State.reject_params (code : BitVec 4) : (s.reject code).params = s.params := rfl
@[simp] theorem State.reject_status (code : BitVec 4) : (s.reject code).status = s.status.rejected code := rfl
@[simp] theorem State.reject_srcAddr (code : BitVec 4) : (s.reject code).srcAddr = s.srcAddr := rfl
@[simp] theorem State.reject_length (code : BitVec 4) : (s.reject code).length = s.length := rfl
@[simp] theorem State.reject_digestLo (code : BitVec 4) : (s.reject code).digestLo = s.digestLo := rfl
@[simp] theorem State.reject_digestHi (code : BitVec 4) : (s.reject code).digestHi = s.digestHi := rfl
@[simp] theorem State.reject_phase (code : BitVec 4) : (s.reject code).phase = s.phase := rfl
@[simp] theorem State.reject_j (code : BitVec 4) : (s.reject code).j = s.j := rfl
@[simp] theorem State.reject_blk (code : BitVec 4) : (s.reject code).blk = s.blk := rfl
@[simp] theorem State.reject_nblk (code : BitVec 4) : (s.reject code).nblk = s.nblk := rfl
@[simp] theorem State.reject_lsrc (code : BitVec 4) : (s.reject code).lsrc = s.lsrc := rfl
@[simp] theorem State.reject_llen (code : BitVec 4) : (s.reject code).llen = s.llen := rfl
@[simp] theorem State.reject_h (code : BitVec 4) : (s.reject code).h = s.h := rfl
@[simp] theorem State.reject_w (code : BitVec 4) : (s.reject code).w = s.w := rfl
@[simp] theorem State.reject_m (code : BitVec 4) : (s.reject code).m = s.m := rfl
@[simp] theorem State.reject_rdata (code : BitVec 4) : (s.reject code).rdata = s.rdata := rfl
@[simp] theorem State.reject_mem (code : BitVec 4) : (s.reject code).mem = s.mem := rfl
@[simp] theorem State.reject_devices (code : BitVec 4) : (s.reject code).devices = s.devices := rfl
@[simp] theorem State.reject_taken (code : BitVec 4) : (s.reject code).taken = s.taken := rfl
@[simp] theorem State.reject_order (code : BitVec 4) : (s.reject code).order = s.order := rfl
@[simp] theorem State.reject_draws (code : BitVec 4) : (s.reject code).draws = s.draws := rfl

/-! ### State.overrun -/

@[simp] theorem State.overrun_params : s.overrun.params = s.params := rfl
@[simp] theorem State.overrun_status : s.overrun.status = s.status.overran := rfl
@[simp] theorem State.overrun_srcAddr : s.overrun.srcAddr = s.srcAddr := rfl
@[simp] theorem State.overrun_length : s.overrun.length = s.length := rfl
@[simp] theorem State.overrun_digestLo : s.overrun.digestLo = s.digestLo := rfl
@[simp] theorem State.overrun_digestHi : s.overrun.digestHi = s.digestHi := rfl
@[simp] theorem State.overrun_phase : s.overrun.phase = s.phase := rfl
@[simp] theorem State.overrun_j : s.overrun.j = s.j := rfl
@[simp] theorem State.overrun_blk : s.overrun.blk = s.blk := rfl
@[simp] theorem State.overrun_nblk : s.overrun.nblk = s.nblk := rfl
@[simp] theorem State.overrun_lsrc : s.overrun.lsrc = s.lsrc := rfl
@[simp] theorem State.overrun_llen : s.overrun.llen = s.llen := rfl
@[simp] theorem State.overrun_h : s.overrun.h = s.h := rfl
@[simp] theorem State.overrun_w : s.overrun.w = s.w := rfl
@[simp] theorem State.overrun_m : s.overrun.m = s.m := rfl
@[simp] theorem State.overrun_rdata : s.overrun.rdata = s.rdata := rfl
@[simp] theorem State.overrun_mem : s.overrun.mem = s.mem := rfl
@[simp] theorem State.overrun_devices : s.overrun.devices = s.devices := rfl
@[simp] theorem State.overrun_taken : s.overrun.taken = s.taken := rfl
@[simp] theorem State.overrun_order : s.overrun.order = s.order := rfl
@[simp] theorem State.overrun_draws : s.overrun.draws = s.draws := rfl

/-! ### State.resetAction -/

@[simp] theorem State.resetAction_params : s.resetAction.params = s.params := rfl
@[simp] theorem State.resetAction_status : s.resetAction.status = Status.zero := rfl
@[simp] theorem State.resetAction_srcAddr : s.resetAction.srcAddr = 0#64 := rfl
@[simp] theorem State.resetAction_length : s.resetAction.length = 0#64 := rfl
@[simp] theorem State.resetAction_digestLo : s.resetAction.digestLo = 0#64 := rfl
@[simp] theorem State.resetAction_digestHi : s.resetAction.digestHi = 0#64 := rfl
@[simp] theorem State.resetAction_phase : s.resetAction.phase = 0b000#3 := rfl
@[simp] theorem State.resetAction_j : s.resetAction.j = BitVec.ofNat 6 (s.free 24) := rfl
@[simp] theorem State.resetAction_blk : s.resetAction.blk = s.free 25 := rfl
@[simp] theorem State.resetAction_nblk : s.resetAction.nblk = s.free 26 := rfl
@[simp] theorem State.resetAction_lsrc : s.resetAction.lsrc = BitVec.ofNat 64 (s.free 27) := rfl
@[simp] theorem State.resetAction_llen : s.resetAction.llen = BitVec.ofNat 64 (s.free 28) := rfl
@[simp] theorem State.resetAction_h : s.resetAction.h = s.freeQuad 0 := rfl
@[simp] theorem State.resetAction_w : s.resetAction.w = s.freeQuad 4 := rfl
@[simp] theorem State.resetAction_m : s.resetAction.m = s.freeBlock 8 := rfl
@[simp] theorem State.resetAction_rdata : s.resetAction.rdata = s.rdata := rfl
@[simp] theorem State.resetAction_mem : s.resetAction.mem = s.mem := rfl
@[simp] theorem State.resetAction_devices : s.resetAction.devices = s.devices := rfl
@[simp] theorem State.resetAction_taken : s.resetAction.taken = [] := rfl
@[simp] theorem State.resetAction_order : s.resetAction.order = s.order := rfl
@[simp] theorem State.resetAction_draws : s.resetAction.draws = s.draws + 29 := rfl

/-! ### State.start -/

@[simp] theorem State.start_params : s.start.params = s.params := rfl
@[simp] theorem State.start_status : s.start.status = Status.started := rfl
@[simp] theorem State.start_srcAddr : s.start.srcAddr = s.srcAddr := rfl
@[simp] theorem State.start_length : s.start.length = s.length := rfl
@[simp] theorem State.start_digestLo : s.start.digestLo = s.digestLo := rfl
@[simp] theorem State.start_digestHi : s.start.digestHi = s.digestHi := rfl
@[simp] theorem State.start_phase : s.start.phase = 0b001#3 := rfl
@[simp] theorem State.start_j : s.start.j = s.j := rfl
@[simp] theorem State.start_blk : s.start.blk = 0 := rfl
@[simp] theorem State.start_nblk : s.start.nblk = blockCount s.length.toNat := rfl
@[simp] theorem State.start_lsrc : s.start.lsrc = s.srcAddr := rfl
@[simp] theorem State.start_llen : s.start.llen = s.length := rfl
@[simp] theorem State.start_h : s.start.h = iv := rfl
@[simp] theorem State.start_w : s.start.w = s.w := rfl
@[simp] theorem State.start_m : s.start.m = s.m := rfl
@[simp] theorem State.start_rdata : s.start.rdata = s.rdata := rfl
@[simp] theorem State.start_mem : s.start.mem = s.mem := rfl
@[simp] theorem State.start_devices : s.start.devices = s.devices := rfl
@[simp] theorem State.start_taken : s.start.taken = [] := rfl
@[simp] theorem State.start_order : s.start.order = s.order := rfl
@[simp] theorem State.start_draws : s.start.draws = s.draws := rfl

/-! ### State.loadBlock -/

@[simp] theorem State.loadBlock_params (bytes : List Byte) : (s.loadBlock bytes).params = s.params := rfl
@[simp] theorem State.loadBlock_status (bytes : List Byte) : (s.loadBlock bytes).status = s.status := rfl
@[simp] theorem State.loadBlock_srcAddr (bytes : List Byte) : (s.loadBlock bytes).srcAddr = s.srcAddr := rfl
@[simp] theorem State.loadBlock_length (bytes : List Byte) : (s.loadBlock bytes).length = s.length := rfl
@[simp] theorem State.loadBlock_digestLo (bytes : List Byte) : (s.loadBlock bytes).digestLo = s.digestLo := rfl
@[simp] theorem State.loadBlock_digestHi (bytes : List Byte) : (s.loadBlock bytes).digestHi = s.digestHi := rfl
@[simp] theorem State.loadBlock_phase (bytes : List Byte) : (s.loadBlock bytes).phase = 0b010#3 := rfl
@[simp] theorem State.loadBlock_j (bytes : List Byte) : (s.loadBlock bytes).j = 0#6 := rfl
@[simp] theorem State.loadBlock_blk (bytes : List Byte) : (s.loadBlock bytes).blk = s.blk := rfl
@[simp] theorem State.loadBlock_nblk (bytes : List Byte) : (s.loadBlock bytes).nblk = s.nblk := rfl
@[simp] theorem State.loadBlock_lsrc (bytes : List Byte) : (s.loadBlock bytes).lsrc = s.lsrc := rfl
@[simp] theorem State.loadBlock_llen (bytes : List Byte) : (s.loadBlock bytes).llen = s.llen := rfl
@[simp] theorem State.loadBlock_h (bytes : List Byte) : (s.loadBlock bytes).h = s.h := rfl
@[simp] theorem State.loadBlock_w (bytes : List Byte) : (s.loadBlock bytes).w = s.h := rfl
@[simp] theorem State.loadBlock_m (bytes : List Byte) : (s.loadBlock bytes).m = unpack bytes := rfl
@[simp] theorem State.loadBlock_rdata (bytes : List Byte) : (s.loadBlock bytes).rdata = s.rdata := rfl
@[simp] theorem State.loadBlock_mem (bytes : List Byte) : (s.loadBlock bytes).mem = s.mem := rfl
@[simp] theorem State.loadBlock_devices (bytes : List Byte) : (s.loadBlock bytes).devices = s.devices := rfl
@[simp] theorem State.loadBlock_taken (bytes : List Byte) : (s.loadBlock bytes).taken = Memory.keepFrom s.taken (64 * (s.blk + 1)) := rfl
@[simp] theorem State.loadBlock_order (bytes : List Byte) : (s.loadBlock bytes).order = s.order := rfl
@[simp] theorem State.loadBlock_draws (bytes : List Byte) : (s.loadBlock bytes).draws = s.draws := rfl

/-! ### State.setW -/

@[simp] theorem State.setW_params (q : Quad) : (s.setW q).params = s.params := rfl
@[simp] theorem State.setW_status (q : Quad) : (s.setW q).status = s.status := rfl
@[simp] theorem State.setW_srcAddr (q : Quad) : (s.setW q).srcAddr = s.srcAddr := rfl
@[simp] theorem State.setW_length (q : Quad) : (s.setW q).length = s.length := rfl
@[simp] theorem State.setW_digestLo (q : Quad) : (s.setW q).digestLo = s.digestLo := rfl
@[simp] theorem State.setW_digestHi (q : Quad) : (s.setW q).digestHi = s.digestHi := rfl
@[simp] theorem State.setW_phase (q : Quad) : (s.setW q).phase = s.phase := rfl
@[simp] theorem State.setW_j (q : Quad) : (s.setW q).j = s.j := rfl
@[simp] theorem State.setW_blk (q : Quad) : (s.setW q).blk = s.blk := rfl
@[simp] theorem State.setW_nblk (q : Quad) : (s.setW q).nblk = s.nblk := rfl
@[simp] theorem State.setW_lsrc (q : Quad) : (s.setW q).lsrc = s.lsrc := rfl
@[simp] theorem State.setW_llen (q : Quad) : (s.setW q).llen = s.llen := rfl
@[simp] theorem State.setW_h (q : Quad) : (s.setW q).h = s.h := rfl
@[simp] theorem State.setW_w (q : Quad) : (s.setW q).w = q := rfl
@[simp] theorem State.setW_m (q : Quad) : (s.setW q).m = s.m := rfl
@[simp] theorem State.setW_rdata (q : Quad) : (s.setW q).rdata = s.rdata := rfl
@[simp] theorem State.setW_mem (q : Quad) : (s.setW q).mem = s.mem := rfl
@[simp] theorem State.setW_devices (q : Quad) : (s.setW q).devices = s.devices := rfl
@[simp] theorem State.setW_taken (q : Quad) : (s.setW q).taken = s.taken := rfl
@[simp] theorem State.setW_order (q : Quad) : (s.setW q).order = s.order := rfl
@[simp] theorem State.setW_draws (q : Quad) : (s.setW q).draws = s.draws := rfl

/-! ### State.accum -/

@[simp] theorem State.accum_params : s.accum.params = s.params := rfl
@[simp] theorem State.accum_status : s.accum.status = s.status := rfl
@[simp] theorem State.accum_srcAddr : s.accum.srcAddr = s.srcAddr := rfl
@[simp] theorem State.accum_length : s.accum.length = s.length := rfl
@[simp] theorem State.accum_digestLo : s.accum.digestLo = s.digestLo := rfl
@[simp] theorem State.accum_digestHi : s.accum.digestHi = s.digestHi := rfl
@[simp] theorem State.accum_phase : s.accum.phase = if s.blk + 1 = s.nblk then 0b100#3 else 0b001#3 := rfl
@[simp] theorem State.accum_j : s.accum.j = s.j := rfl
@[simp] theorem State.accum_blk : s.accum.blk = s.blk + 1 := rfl
@[simp] theorem State.accum_nblk : s.accum.nblk = s.nblk := rfl
@[simp] theorem State.accum_lsrc : s.accum.lsrc = s.lsrc := rfl
@[simp] theorem State.accum_llen : s.accum.llen = s.llen := rfl
@[simp] theorem State.accum_h : s.accum.h = addQuad s.h s.w := rfl
@[simp] theorem State.accum_w : s.accum.w = s.w := rfl
@[simp] theorem State.accum_m : s.accum.m = s.m := rfl
@[simp] theorem State.accum_rdata : s.accum.rdata = s.rdata := rfl
@[simp] theorem State.accum_mem : s.accum.mem = s.mem := rfl
@[simp] theorem State.accum_devices : s.accum.devices = s.devices := rfl
@[simp] theorem State.accum_taken : s.accum.taken = s.taken := rfl
@[simp] theorem State.accum_order : s.accum.order = s.order := rfl
@[simp] theorem State.accum_draws : s.accum.draws = s.draws := rfl

/-! ### State.final -/

@[simp] theorem State.final_params : s.final.params = s.params := rfl
@[simp] theorem State.final_status : s.final.status = s.status.finished := rfl
@[simp] theorem State.final_srcAddr : s.final.srcAddr = s.srcAddr := rfl
@[simp] theorem State.final_length : s.final.length = s.length := rfl
@[simp] theorem State.final_digestLo : s.final.digestLo = packLo s.h := rfl
@[simp] theorem State.final_digestHi : s.final.digestHi = packHi s.h := rfl
@[simp] theorem State.final_phase : s.final.phase = 0b000#3 := rfl
@[simp] theorem State.final_j : s.final.j = s.j := rfl
@[simp] theorem State.final_blk : s.final.blk = s.blk := rfl
@[simp] theorem State.final_nblk : s.final.nblk = s.nblk := rfl
@[simp] theorem State.final_lsrc : s.final.lsrc = s.lsrc := rfl
@[simp] theorem State.final_llen : s.final.llen = s.llen := rfl
@[simp] theorem State.final_h : s.final.h = s.h := rfl
@[simp] theorem State.final_w : s.final.w = s.w := rfl
@[simp] theorem State.final_m : s.final.m = s.m := rfl
@[simp] theorem State.final_rdata : s.final.rdata = s.rdata := rfl
@[simp] theorem State.final_mem : s.final.mem = s.mem := rfl
@[simp] theorem State.final_devices : s.final.devices = s.devices := rfl
@[simp] theorem State.final_taken : s.final.taken = s.taken := rfl
@[simp] theorem State.final_order : s.final.order = s.order := rfl
@[simp] theorem State.final_draws : s.final.draws = s.draws := rfl

/-! ### State.nextRound -/

@[simp] theorem State.nextRound_params : s.nextRound.params = s.params := by unfold State.nextRound; split <;> rfl
@[simp] theorem State.nextRound_status : s.nextRound.status = s.status := by unfold State.nextRound; split <;> rfl
@[simp] theorem State.nextRound_srcAddr : s.nextRound.srcAddr = s.srcAddr := by unfold State.nextRound; split <;> rfl
@[simp] theorem State.nextRound_length : s.nextRound.length = s.length := by unfold State.nextRound; split <;> rfl
@[simp] theorem State.nextRound_digestLo : s.nextRound.digestLo = s.digestLo := by unfold State.nextRound; split <;> rfl
@[simp] theorem State.nextRound_digestHi : s.nextRound.digestHi = s.digestHi := by unfold State.nextRound; split <;> rfl
@[simp] theorem State.nextRound_phase : s.nextRound.phase = if s.j = 63#6 then 0b011#3 else s.phase := by
  unfold State.nextRound; split <;> rfl
@[simp] theorem State.nextRound_j : s.nextRound.j = if s.j = 63#6 then s.j else s.j + 1#6 := by
  unfold State.nextRound; split <;> rfl
@[simp] theorem State.nextRound_blk : s.nextRound.blk = s.blk := by unfold State.nextRound; split <;> rfl
@[simp] theorem State.nextRound_nblk : s.nextRound.nblk = s.nblk := by unfold State.nextRound; split <;> rfl
@[simp] theorem State.nextRound_lsrc : s.nextRound.lsrc = s.lsrc := by unfold State.nextRound; split <;> rfl
@[simp] theorem State.nextRound_llen : s.nextRound.llen = s.llen := by unfold State.nextRound; split <;> rfl
@[simp] theorem State.nextRound_h : s.nextRound.h = s.h := by unfold State.nextRound; split <;> rfl
@[simp] theorem State.nextRound_w : s.nextRound.w = s.w := by unfold State.nextRound; split <;> rfl
@[simp] theorem State.nextRound_m : s.nextRound.m = s.m := by unfold State.nextRound; split <;> rfl
@[simp] theorem State.nextRound_rdata : s.nextRound.rdata = s.rdata := by unfold State.nextRound; split <;> rfl
@[simp] theorem State.nextRound_mem : s.nextRound.mem = s.mem := by unfold State.nextRound; split <;> rfl
@[simp] theorem State.nextRound_devices : s.nextRound.devices = s.devices := by unfold State.nextRound; split <;> rfl
@[simp] theorem State.nextRound_taken : s.nextRound.taken = s.taken := by unfold State.nextRound; split <;> rfl
@[simp] theorem State.nextRound_order : s.nextRound.order = s.order := by unfold State.nextRound; split <;> rfl
@[simp] theorem State.nextRound_draws : s.nextRound.draws = s.draws := by unfold State.nextRound; split <;> rfl

end Updates

section StatusUpdates

variable (st : Status)

/-! ### Status.overran -/

@[simp] theorem Status.overran_busy : st.overran.busy = st.busy := rfl
@[simp] theorem Status.overran_done : st.overran.done = st.done := rfl
@[simp] theorem Status.overran_err : st.overran.err = st.err := rfl
@[simp] theorem Status.overran_overrun : st.overran.overrun = true := rfl
@[simp] theorem Status.overran_errCode : st.overran.errCode = st.errCode := rfl

/-! ### Status.finished -/

@[simp] theorem Status.finished_busy : st.finished.busy = false := rfl
@[simp] theorem Status.finished_done : st.finished.done = true := rfl
@[simp] theorem Status.finished_err : st.finished.err = st.err := rfl
@[simp] theorem Status.finished_overrun : st.finished.overrun = st.overrun := rfl
@[simp] theorem Status.finished_errCode : st.finished.errCode = st.errCode := rfl

/-! ### Status.rejected -/

@[simp] theorem Status.rejected_busy (code : BitVec 4) : (st.rejected code).busy = st.busy := rfl
@[simp] theorem Status.rejected_done (code : BitVec 4) : (st.rejected code).done = false := rfl
@[simp] theorem Status.rejected_err (code : BitVec 4) : (st.rejected code).err = true := rfl
@[simp] theorem Status.rejected_overrun (code : BitVec 4) : (st.rejected code).overrun = st.overrun := rfl
@[simp] theorem Status.rejected_errCode (code : BitVec 4) : (st.rejected code).errCode = code := rfl

end StatusUpdates

@[simp] theorem Status.started_busy : Status.started.busy = true := rfl
@[simp] theorem Status.started_done : Status.started.done = false := rfl
@[simp] theorem Status.started_err : Status.started.err = false := rfl
@[simp] theorem Status.started_overrun : Status.started.overrun = false := rfl
@[simp] theorem Status.started_errCode : Status.started.errCode = 0x0#4 := rfl

@[simp] theorem Status.zero_busy : Status.zero.busy = false := rfl
@[simp] theorem Status.zero_done : Status.zero.done = false := rfl
@[simp] theorem Status.zero_err : Status.zero.err = false := rfl
@[simp] theorem Status.zero_overrun : Status.zero.overrun = false := rfl
@[simp] theorem Status.zero_errCode : Status.zero.errCode = 0x0#4 := rfl

/-! ### What the reads of input memory depend on -/

@[simp] theorem State.memByte_turnsLeft (s : State) (rest : List Turn) (a : Nat) :
    (s.turnsLeft rest).memByte a = s.memByte a := rfl

@[simp] theorem State.memRead_turnsLeft (s : State) (rest : List Turn) (a : Nat) :
    (s.turnsLeft rest).memRead a = s.memRead a := rfl

/-- A read of input memory depends on the memory and ADDR_W alone (R62, R63). -/
theorem State.memRead_congr {s t : State} (hm : t.mem = s.mem) (hp : t.params = s.params) (a : Nat) :
    t.memRead a = s.memRead a := by
  unfold State.memRead State.memByte; rw [hm, hp]

/-- A message byte depends on LSRC, the bytes already read, the memory and ADDR_W alone (R64). -/
theorem State.msgByte_congr {s t : State} (hm : t.mem = s.mem) (hp : t.params = s.params) (ht : t.taken = s.taken)
    (hl : t.lsrc = s.lsrc) (i : Nat) : t.msgByte i = s.msgByte i := by
  unfold State.msgByte State.msgAddr; rw [ht, hl, State.memRead_congr hm hp]

end Sys2Proof.Machine
end

