-- ==== Sys2Proof/Laws/Memory.lean ====
section
/-! SUPPORT. The lists of cells: every operation keeps the canonical form, a read gives what was written, and other
keys read as before. -/

namespace Sys2Proof.Machine

theorem Memory.read_write_same (l : List Host.Cell) (a : Nat) (v : Byte) :
    Memory.read (Memory.write l a v) a = some v := by
  induction l with
  | nil => simp [Memory.write, Memory.read]
  | cons c rest ih =>
    obtain ⟨b, u⟩ := c
    unfold Memory.write
    split
    · simp [Memory.read]
    · split
      · simp [Memory.read]
      · rename_i h; simp [Memory.read, h, ih]

theorem Memory.read_write_other (l : List Host.Cell) {a b : Nat} (v : Byte) (h : b ≠ a) :
    Memory.read (Memory.write l a v) b = Memory.read l b := by
  induction l with
  | nil => simp [Memory.write, Memory.read, h]
  | cons c rest ih =>
    obtain ⟨x, u⟩ := c
    unfold Memory.write
    split
    · simp [Memory.read, h]
    · split
      · rename_i e; subst e; simp [Memory.read, h]
      · simp [Memory.read, ih]

/-- Filtering by a test of the key leaves the read of a key that passes, and removes the others. -/
theorem Memory.read_filter (l : List Host.Cell) (p : Nat → Bool) (a : Nat) :
    Memory.read (l.filter fun c => p c.1) a = if p a then Memory.read l a else none := by
  induction l with
  | nil => simp [Memory.read]
  | cons c rest ih =>
    obtain ⟨x, u⟩ := c
    by_cases hx : p x = true
    · simp only [List.filter_cons, hx, if_true, Memory.read, ih]
      by_cases ha : a = x
      · simp [ha, hx]
      · simp [ha]
    · by_cases ha : a = x
      · subst ha; simp only [List.filter_cons, hx]; simp [ih, hx]
      · simp only [List.filter_cons, hx, Memory.read, if_neg ha]; simp [ih]

theorem Memory.read_erase_same (l : List Host.Cell) (a : Nat) : Memory.read (Memory.erase l a) a = none := by
  rw [Memory.erase, Memory.read_filter l (fun x => decide (x ≠ a))]; simp

theorem Memory.read_erase_other (l : List Host.Cell) {a b : Nat} (h : b ≠ a) :
    Memory.read (Memory.erase l a) b = Memory.read l b := by
  rw [Memory.erase, Memory.read_filter l (fun x => decide (x ≠ a))]; simp [h]

theorem Memory.read_keepFrom (l : List Host.Cell) (lo a : Nat) :
    Memory.read (Memory.keepFrom l lo) a = if lo ≤ a then Memory.read l a else none := by
  rw [Memory.keepFrom, Memory.read_filter l (fun x => decide (lo ≤ x))]; simp

/-- The cells of a list after a write: the new one, or cells of before. -/
theorem Memory.mem_write {l : List Host.Cell} {a : Nat} {v : Byte} {c : Host.Cell}
    (h : c ∈ Memory.write l a v) : c = (a, v) ∨ c ∈ l := by
  induction l with
  | nil => simpa [Memory.write] using h
  | cons d rest ih =>
    obtain ⟨x, u⟩ := d
    unfold Memory.write at h
    split at h
    · simpa using h
    · split at h
      · simp only [List.mem_cons] at h ⊢; tauto
      · simp only [List.mem_cons] at h ⊢
        rcases h with h | h
        · exact .inr (.inl h)
        · rcases ih h with h | h
          · exact .inl h
          · exact .inr (.inr h)

theorem Memory.wf_write {l : List Host.Cell} (a : Nat) (v : Byte) (h : Memory.wf l) :
    Memory.wf (Memory.write l a v) := by
  induction l with
  | nil => simp [Memory.write, Memory.wf]
  | cons c rest ih =>
    obtain ⟨x, u⟩ := c
    obtain ⟨hx, hr⟩ := List.pairwise_cons.1 h
    unfold Memory.write
    split
    · rename_i ax
      refine List.pairwise_cons.2 ⟨fun y hy => ?_, h⟩
      rcases List.mem_cons.1 hy with rfl | hy
      · exact ax
      · exact ax.trans (hx y hy)
    · split
      · rename_i ax; subst ax; exact List.pairwise_cons.2 ⟨hx, hr⟩
      · refine List.pairwise_cons.2 ⟨fun y hy => ?_, ih hr⟩
        rcases Memory.mem_write hy with rfl | hy
        · simp only; omega
        · exact hx y hy

theorem Memory.wf_erase {l : List Host.Cell} (a : Nat) (h : Memory.wf l) : Memory.wf (Memory.erase l a) :=
  List.Pairwise.filter _ h

theorem Memory.wf_keepFrom {l : List Host.Cell} (lo : Nat) (h : Memory.wf l) : Memory.wf (Memory.keepFrom l lo) :=
  List.Pairwise.filter _ h

theorem Memory.mem_keepFrom {l : List Host.Cell} {lo : Nat} {c : Host.Cell} :
    c ∈ Memory.keepFrom l lo ↔ c ∈ l ∧ lo ≤ c.1 := by simp [Memory.keepFrom]

theorem Memory.wf_reset : Memory.wf State.reset.mem := List.Pairwise.nil

/-- A host write of a byte is what a later read gives. -/
theorem State.memByte_place_same (s : State) (a : Nat) (v : Byte) : (s.place a v).memByte a = some v :=
  Memory.read_write_same s.mem a v

theorem State.memByte_place_other (s : State) {a b : Nat} (v : Byte) (h : b ≠ a) :
    (s.place a v).memByte b = s.memByte b := Memory.read_write_other s.mem v h

theorem State.memByte_withdraw_same (s : State) (a : Nat) : (s.withdraw a).memByte a = none :=
  Memory.read_erase_same s.mem a

theorem State.memByte_withdraw_other (s : State) {a b : Nat} (h : b ≠ a) :
    (s.withdraw a).memByte b = s.memByte b := Memory.read_erase_other s.mem h

/-- A read is admitted exactly where the address is in the space and the memory lists it (R63). -/
theorem State.memRead_eq_ok {s : State} {a : Nat} {b : Byte} :
    s.memRead a = .ok b ↔ a < 2 ^ s.params.addrW ∧ s.memByte a = some b := by
  unfold State.memRead
  by_cases h : a < 2 ^ s.params.addrW
  · cases hb : s.memByte a <;> simp [h]
  · simp [h]

/-- The only fault of a read names its address (R256). -/
theorem State.memRead_eq_error {s : State} {a : Nat} {f : Fault} (h : s.memRead a = .error f) :
    f = .inputUnreadable a := by
  unfold State.memRead at h
  split at h
  · split at h <;> simp_all
  · simp_all

end Sys2Proof.Machine
end

