-- ==== Sys2Proof/Laws/Operands.lean ====
section
/-! SUPPORT. One lemma for each function of bytes and words that says what it gives. -/

namespace Sys2Proof.Machine

/-- Byte k of a 64-bit value is its k-th digit in base 256 (R16). -/
theorem leByte_eq_digit (v : DWord) (k : Nat) : leByte v k = BitVec.ofNat 8 (v.toNat / 256 ^ k) := by
  unfold leByte
  apply BitVec.eq_of_toNat_eq
  simp only [BitVec.extractLsb'_toNat, BitVec.toNat_ofNat, Nat.shiftRight_eq_div_pow, Nat.pow_mul]

theorem leWord_byte0 (b0 b1 b2 b3 : Byte) : (leWord b0 b1 b2 b3).extractLsb' 0 8 = b0 :=
  BitVec.extractLsb'_append_eq_right

theorem leWord_byte1 (b0 b1 b2 b3 : Byte) : (leWord b0 b1 b2 b3).extractLsb' 8 8 = b1 :=
  (BitVec.extractLsb'_append_eq_of_le (w := 8) (by decide)).trans BitVec.extractLsb'_append_eq_right

theorem leWord_byte2 (b0 b1 b2 b3 : Byte) : (leWord b0 b1 b2 b3).extractLsb' 16 8 = b2 :=
  (BitVec.extractLsb'_append_eq_of_le (w := 8) (by decide)).trans
    ((BitVec.extractLsb'_append_eq_of_le (w := 8) (by decide)).trans BitVec.extractLsb'_append_eq_right)

theorem leWord_byte3 (b0 b1 b2 b3 : Byte) : (leWord b0 b1 b2 b3).extractLsb' 24 8 = b3 :=
  (BitVec.extractLsb'_append_eq_of_le (w := 8) (by decide)).trans
    ((BitVec.extractLsb'_append_eq_of_le (w := 8) (by decide)).trans BitVec.extractLsb'_append_eq_left)

/-- Byte n of a block is bits [8 (n mod 4) + 7 : 8 (n mod 4)] of word n div 4 (R122). -/
theorem unpack_byte (bytes : List Byte) (n : Nat) (h : n < 64) :
    ((unpack bytes)[n / 4]'(by omega)).extractLsb' (8 * (n % 4)) 8 = bytes.getD n 0#8 := by
  simp only [unpack, Vector.getElem_ofFn]
  obtain ⟨q, r, hr, rfl⟩ : ∃ q r, r < 4 ∧ n = 4 * q + r := ⟨n / 4, n % 4, by omega, by omega⟩
  rw [show (4 * q + r) / 4 = q by omega, show (4 * q + r) % 4 = r by omega]
  rcases r with _ | _ | _ | _ | r
  · exact leWord_byte0 ..
  · exact leWord_byte1 ..
  · exact leWord_byte2 ..
  · exact leWord_byte3 ..
  · omega

/-- The word a read of STATUS returns, by the places of its fields (R32). -/
theorem Status.word_toNat (st : Status) :
    st.word.toNat =
      st.busy.toNat + 2 * st.done.toNat + 4 * st.err.toNat + 8 * st.overrun.toNat + 16 * st.errCode.toNat := by
  obtain ⟨b, dn, e, o, c⟩ := st
  revert c
  cases b <;> cases dn <;> cases e <;> cases o <;> decide

/-- No byte of the next launch's message lies in a region with read side effects (R62). -/
theorem State.sideEffects_eq_false {s : State} :
    s.sideEffects = false ↔ ∀ r ∈ s.devices, r.meets s.srcAddr.toNat s.length.toNat = false := by
  simp [State.sideEffects]

/-- A region meets a run of addresses where it holds one of them. -/
theorem Region.meets_iff {r : Region} {lo n : Nat} :
    r.meets lo n = true ↔ ∃ a, r.base ≤ a ∧ a < r.base + r.size ∧ lo ≤ a ∧ a < lo + n := by
  simp only [Region.meets, decide_eq_true_eq]
  exact ⟨fun h => ⟨max r.base lo, by omega⟩, fun ⟨a, h⟩ => by omega⟩

end Sys2Proof.Machine
end

