-- ==== Sys2Proof/Laws/Ops.lean ====
section
/-! SUPPORT. One lemma for each shared operation that says once all it can do. -/

namespace Sys2Proof.Machine

/-! ### The input reads -/

/-- A byte of the stream faults only where it is a message byte, not read early, whose read is not admitted (R102). -/
theorem State.streamByte_error {s : State} {i : Nat} {f : Fault} (h : s.streamByte i = .error f) :
    i < s.llen.toNat ∧ Memory.read s.taken i = none ∧ s.memRead (s.msgAddr i) = .error f ∧
      f = .inputUnreadable (s.msgAddr i) := by
  unfold State.streamByte at h
  split at h
  · rename_i hi
    unfold State.msgByte at h
    split at h
    · cases h
    · rename_i ht
      exact ⟨hi, ht, h, State.memRead_eq_error h⟩
  · cases h

/-- All the bytes of a run are read: there are n of them, and each is its byte of the stream. -/
theorem State.streamBytes_ok {s : State} : ∀ {n i : Nat} {bs : List Byte}, s.streamBytes i n = .ok bs →
    bs.length = n ∧ ∀ t, t < n → s.streamByte (i + t) = .ok (bs.getD t 0#8)
  | 0, i, bs, h => by
    simp only [State.streamBytes, Except.ok.injEq] at h
    subst h
    exact ⟨rfl, fun t ht => absurd ht (Nat.not_lt_zero t)⟩
  | n + 1, i, bs, h => by
    unfold State.streamBytes at h
    split at h
    · cases h
    · rename_i b hb
      split at h
      · cases h
      · rename_i cs hcs
        cases h
        obtain ⟨hl, hr⟩ := State.streamBytes_ok hcs
        refine ⟨by simp [hl], fun t ht => ?_⟩
        cases t with
        | zero => simpa using hb
        | succ t =>
          have := hr t (by omega)
          rw [show i + (t + 1) = i + 1 + t by omega, this]
          rfl

/-- Where each byte of a run is readable, the run is read, and its bytes are those. -/
theorem State.streamBytes_of_forall {s : State} (f : Nat → Byte) : ∀ {n i : Nat},
    (∀ t, t < n → s.streamByte (i + t) = .ok (f (i + t))) →
    s.streamBytes i n = .ok ((List.range n).map fun t => f (i + t))
  | 0, i, _ => rfl
  | n + 1, i, h => by
    have h0 := h 0 (by omega)
    have hr : s.streamBytes (i + 1) n = .ok ((List.range n).map fun t => f (i + 1 + t)) :=
      State.streamBytes_of_forall f fun t ht => by
        have := h (t + 1) (by omega)
        rwa [show i + (t + 1) = i + 1 + t by omega] at this
    rw [Nat.add_zero] at h0
    simp only [State.streamBytes, h0, hr, List.range_succ_eq_map, List.map_cons, List.map_map, Nat.add_zero]
    congr 2
    apply List.map_congr_left
    intro t _
    simp only [Function.comp]
    congr 1
    omega

/-- A run that is not read has a byte that faults so. -/
theorem State.streamBytes_error {s : State} : ∀ {n i : Nat} {f : Fault}, s.streamBytes i n = .error f →
    ∃ t, t < n ∧ s.streamByte (i + t) = .error f
  | 0, i, f, h => by cases h
  | n + 1, i, f, h => by
    unfold State.streamBytes at h
    split at h
    · rename_i g hg
      cases h
      exact ⟨0, by omega, by simpa using hg⟩
    · split at h
      · rename_i g hg
        cases h
        obtain ⟨t, ht, he⟩ := State.streamBytes_error hg
        exact ⟨t + 1, by omega, by rwa [show i + (t + 1) = i + 1 + t by omega]⟩
      · cases h

/-! ### PHASE_LOAD -/

/-- LOAD completes only with the 64 bytes of its block (R172). -/
theorem execPhaseLoad_next {s t : State} (h : execPhaseLoad s = .next t) :
    ∃ bytes, s.streamBytes (64 * s.blk) 64 = .ok bytes ∧ t = s.loadBlock bytes := by
  unfold execPhaseLoad at h
  split at h
  · cases h
  · rename_i bytes hb
    cases h
    exact ⟨bytes, hb, rfl⟩

/-- LOAD faults only on an input read that is not admitted (R256). -/
theorem execPhaseLoad_fault {s : State} {f : Fault} (h : execPhaseLoad s = .fault f) :
    s.streamBytes (64 * s.blk) 64 = .error f := by
  unfold execPhaseLoad at h
  split at h
  · rename_i g hg; cases h; exact hg
  · cases h

/-! ### START -/

/-- A launch is a START, or is refused because its input has side effects (R62). -/
theorem State.launch_cases (s : State) :
    (s.sideEffects = false ∧ s.launch = .next s.start) ∨
    (s.sideEffects = true ∧ s.launch = .refused (.sideEffectInput s.srcAddr.toNat s.length.toNat)) := by
  unfold State.launch State.sideEffects
  split <;> simp_all

/-- A DIGEST written while idle is rejected for its length, or launched (R231, R257). -/
theorem State.digestIdle_cases (s : State) :
    ((s.params.strict = true ∧ lengthLimit s.params.lenMode < s.length.toNat) ∧
      s.digestIdle = .next (s.reject lengthOverflow)) ∨
    (¬ (s.params.strict = true ∧ lengthLimit s.params.lenMode < s.length.toNat) ∧ s.digestIdle = s.launch) := by
  unfold State.digestIdle
  split <;> simp_all

/-! ### The operations -/

/-- A DIGEST written while idle that answers a next state is a rejection for its length, or a START (R231). -/
theorem State.digestIdle_next {s t : State} (h : s.digestIdle = .next t) :
    (s.params.strict = true ∧ lengthLimit s.params.lenMode < s.length.toNat ∧ t = s.reject lengthOverflow) ∨
    (s.sideEffects = false ∧ t = s.start) := by
  rcases s.digestIdle_cases with ⟨⟨hs, hl⟩, he⟩ | ⟨-, he⟩
  · rw [he] at h; cases h; exact .inl ⟨hs, hl, rfl⟩
  · rw [he] at h
    rcases s.launch_cases with ⟨hf, he⟩ | ⟨-, he⟩
    · rw [he] at h; cases h; exact .inr ⟨hf, rfl⟩
    · rw [he] at h; cases h

/-- All that an operation which answers a next state can do. -/
theorem exec_next {i : Instr} {s t : State} (h : exec i s = .next t) :
    t = s ∨
    (∃ d v, i ∈ registerReads d ∧ t = s.answer v) ∨
    (∃ v, i = .wrSrcAddr v ∧ t = s.setSrcAddr v) ∨
    (∃ v, i = .wrLength v ∧ t = s.setLength v) ∨
    (s.status.busy = true ∧ t = s.overrun) ∨
    (s.status.busy = false ∧ t = s.reject badCommand) ∨
    (s.status.busy = false ∧ (i = .digest ∨ i = .wrCmd 1#64) ∧ s.params.strict = true ∧
      lengthLimit s.params.lenMode < s.length.toNat ∧ t = s.reject lengthOverflow) ∨
    (s.status.busy = false ∧ (i = .digest ∨ i = .wrCmd 1#64) ∧ s.sideEffects = false ∧ t = s.start) ∨
    ((i = .softReset ∨ i = .wrCmd 2#64) ∧ t = s.resetAction) ∨
    ((∃ pos, i = .rndF pos ∨ i = .rndG pos ∨ i = .rndH pos ∨ i = .rndI pos) ∧ ∃ q, t = s.setW q) ∨
    (i = .phaseLoad ∧ ∃ bytes, s.streamBytes (64 * s.blk) 64 = .ok bytes ∧ t = s.loadBlock bytes) ∨
    (i = .phaseRound ∧ t = (s.setW (roundAt s.j s.m s.w)).nextRound) ∨
    (i = .phaseAccum ∧ t = s.accum) ∨
    (i = .phaseFinal ∧ t = s.final) := by
  cases i with
  | rdCmd d | rdStatus d | rdSrcAddr d | rdLength d | rdDigestLo d | rdDigestHi d | rdDigest64 d | rdCaps d =>
    cases h; exact .inr (.inl ⟨d, _, by simp, rfl⟩)
  | wrStatus | wrDigestLo | wrDigestHi | wrDigest64 | wrCaps | phaseIdle => cases h; exact .inl rfl
  | wrSrcAddr v => cases h; simp
  | wrLength v => cases h; simp
  | wrCmd v =>
    simp only [exec, execWrCmd] at h
    split at h
    · split at h
      · cases h; simp_all
      · cases h; simp_all
    · rename_i hb
      have hb : s.status.busy = false := by simpa using hb
      split at h
      · cases h; exact .inl rfl
      · split at h
        · rename_i hv; subst hv
          rcases State.digestIdle_next h with ⟨h1, h2, rfl⟩ | ⟨h1, rfl⟩ <;> simp [*]
        · split at h
          · cases h; simp_all
          · cases h; simp [hb]
  | nop => simp only [exec, execNop] at h; split at h <;> cases h <;> simp_all
  | digest =>
    simp only [exec, execDigest] at h
    split at h
    · cases h; simp_all
    · rename_i hb
      have hb : s.status.busy = false := by simpa using hb
      rcases State.digestIdle_next h with ⟨h1, h2, rfl⟩ | ⟨h1, rfl⟩ <;> simp [*]
  | softReset => cases h; simp
  | reservedCmd v => simp only [exec, execReservedCmd] at h; split at h <;> cases h <;> simp_all
  | rndF pos | rndG pos | rndH pos | rndI pos =>
    cases h
    exact .inr (.inr (.inr (.inr (.inr (.inr (.inr (.inr (.inr (.inl ⟨⟨pos, by simp⟩, _, rfl⟩)))))))))
  | phaseLoad =>
    obtain ⟨bytes, hb, rfl⟩ := execPhaseLoad_next h
    simp [hb]
  | phaseRound => cases h; simp
  | phaseAccum => cases h; simp
  | phaseFinal => cases h; simp

/-! ### The turns -/

/-- The engine's turn: the operation of the phase, or the fault of a PHASE outside the five (R86, R170). -/
theorem fetchEngine_cases (s : State) :
    (∃ i, decodePhase s.phase = .ok i ∧ fetchEngine s = .run i s) ∨
    fetchEngine s = .done (.fault (.illegalPhase s.phase)) := by
  unfold fetchEngine
  cases h : decodePhase s.phase with
  | ok i => exact .inl ⟨i, rfl, rfl⟩
  | error r =>
    right
    unfold decodePhase at h
    split at h <;> cases h
    rfl

/-- When a message byte may be read now (R64). -/
theorem State.readDue_iff (s : State) (i : Nat) :
    s.readDue i = true ↔
      s.status.busy = true ∧ i < s.llen.toNat ∧ s.nextLoad ≤ i / 64 ∧ Memory.read s.taken i = none := by
  simp [State.readDue, and_assoc]

/-- An early read changes nothing, keeps the byte it read, or faults (R63, R64). -/
theorem earlyRead_cases (i : Nat) (s : State) :
    (s.readDue i = false ∧ earlyRead i s = .next s) ∨
    (∃ b, s.readDue i = true ∧ s.memRead (s.msgAddr i) = .ok b ∧ earlyRead i s = .next (s.take i b)) ∨
    (s.readDue i = true ∧ earlyRead i s = .fault (.inputUnreadable (s.msgAddr i))) := by
  unfold earlyRead
  split
  · rename_i hd
    cases hr : s.memRead (s.msgAddr i) with
    | ok b => exact .inr (.inl ⟨b, hd, rfl, rfl⟩)
    | error f => rw [State.memRead_eq_error hr]; exact .inr (.inr ⟨hd, rfl⟩)
  · rename_i hd
    exact .inl ⟨by simpa using hd, rfl⟩

/-- The phase decides the engine's operation (R86, R170). -/
theorem decodePhase_ok {p : BitVec 3} {i : Instr} (h : decodePhase p = .ok i) :
    (p = 0b000#3 ∧ i = .phaseIdle) ∨ (p = 0b001#3 ∧ i = .phaseLoad) ∨ (p = 0b010#3 ∧ i = .phaseRound) ∨
    (p = 0b011#3 ∧ i = .phaseAccum) ∨ (p = 0b100#3 ∧ i = .phaseFinal) := by
  revert h
  simp only [decodePhase, ← BitVec.toNat_inj]
  split <;> simp_all [eq_comm]

/-- All that a step which answers a next state can be: the operation of the phase, a host transaction, an input read,
a change of input memory, or hardware reset (R74). -/
theorem step_cases {s t : State} (h : step s = .next t) :
    (∃ rest i, (s.order = [] ∧ rest = [] ∨ s.order = .engine :: rest) ∧ decodePhase s.phase = .ok i ∧
      exec i (s.turnsLeft rest) = .next t) ∨
    (∃ rest word, s.order = .host word :: rest ∧ exec (decodeBus word) (s.turnsLeft rest) = .next t) ∨
    (∃ rest i, s.order = .read i :: rest ∧ earlyRead i (s.turnsLeft rest) = .next t) ∨
    (∃ rest a v, s.order = .place a v :: rest ∧ t = (s.turnsLeft rest).place a v) ∨
    (∃ rest a, s.order = .withdraw a :: rest ∧ t = (s.turnsLeft rest).withdraw a) ∨
    (∃ rest, s.order = .reset :: rest ∧ t = (s.turnsLeft rest).resetAction) := by
  unfold step fetch at h
  cases ho : s.order with
  | nil =>
    rw [ho] at h
    have hs : s.turnsLeft [] = s := by cases s; simp_all [State.turnsLeft]
    rcases fetchEngine_cases s with ⟨i, hi, he⟩ | he
    · rw [he] at h
      exact .inl ⟨[], i, .inl ⟨rfl, rfl⟩, hi, by rw [hs]; exact h⟩
    · rw [he] at h; cases h
  | cons turn rest =>
    rw [ho] at h
    cases turn with
    | engine =>
      rcases fetchEngine_cases (s.turnsLeft rest) with ⟨i, hi, he⟩ | he
      · simp only [he] at h
        exact .inl ⟨rest, i, .inr rfl, hi, h⟩
      · simp only [he] at h; cases h
    | host word => exact .inr (.inl ⟨rest, word, rfl, h⟩)
    | read i => exact .inr (.inr (.inl ⟨rest, i, rfl, h⟩))
    | place a v => cases h; exact .inr (.inr (.inr (.inl ⟨rest, a, v, rfl, rfl⟩)))
    | withdraw a => cases h; exact .inr (.inr (.inr (.inr (.inl ⟨rest, a, rfl, rfl⟩))))
    | reset => cases h; exact .inr (.inr (.inr (.inr (.inr ⟨rest, rfl, rfl⟩))))

/-! ### Runs -/

theorem core_run_zero (s : State) : Sys2Proof.core.run 0 s = .next s := rfl

theorem host_run_succ {M : Host.Core} {s t : M.State} (h : M.step s = .next t) (k : Nat) :
    M.run (k + 1) s = M.run k t := by
  simp only [Host.Core.run, h]

/-- A run goes on from the state its first step leaves. -/
theorem core_run_succ {s t : State} (h : step s = .next t) (k : Nat) :
    Sys2Proof.core.run (k + 1) s = Sys2Proof.core.run k t :=
  host_run_succ (M := Sys2Proof.core) h k

end Sys2Proof.Machine
end

