-- ==== Sys2Proof/Laws/PerInstr.lean ====
section
/-! SUPPORT. The per-instruction family RoundTrip: decoding the encoding of a well-formed operation gives it back. -/

/-- Decoding an encoded well-formed operation gives it back, whatever its operands (spec/30_encoding.md R88). -/
def Sys2Proof.Laws.RoundTrip.Statement (i : Sys2Proof.Instr) : Prop :=
  i.wf = true → Sys2Proof.decode (Sys2Proof.encode i) = .ok i

namespace Sys2Proof.Laws.RoundTrip

theorem rdCmd (data : DWord) : Statement (.rdCmd data) := fun _ => by
  simp [encode, decode, decodeBus_busWord, decodeRead]

theorem rdStatus (data : DWord) : Statement (.rdStatus data) := fun _ => by
  simp [encode, decode, decodeBus_busWord, decodeRead]

theorem rdSrcAddr (data : DWord) : Statement (.rdSrcAddr data) := fun _ => by
  simp [encode, decode, decodeBus_busWord, decodeRead]

theorem rdLength (data : DWord) : Statement (.rdLength data) := fun _ => by
  simp [encode, decode, decodeBus_busWord, decodeRead]

theorem rdDigestLo (data : DWord) : Statement (.rdDigestLo data) := fun _ => by
  simp [encode, decode, decodeBus_busWord, decodeRead]

theorem rdDigestHi (data : DWord) : Statement (.rdDigestHi data) := fun _ => by
  simp [encode, decode, decodeBus_busWord, decodeRead]

theorem rdDigest64 (data : DWord) : Statement (.rdDigest64 data) := fun _ => by
  simp [encode, decode, decodeBus_busWord, decodeRead]

theorem rdCaps (data : DWord) : Statement (.rdCaps data) := fun _ => by
  simp [encode, decode, decodeBus_busWord, decodeRead]

theorem wrCmd (data : DWord) : Statement (.wrCmd data) := fun _ => by
  simp [encode, decode, decodeBus_busWord, decodeWrite]

theorem wrStatus (data : DWord) : Statement (.wrStatus data) := fun _ => by
  simp [encode, decode, decodeBus_busWord, decodeWrite]

theorem wrSrcAddr (data : DWord) : Statement (.wrSrcAddr data) := fun _ => by
  simp [encode, decode, decodeBus_busWord, decodeWrite]

theorem wrLength (data : DWord) : Statement (.wrLength data) := fun _ => by
  simp [encode, decode, decodeBus_busWord, decodeWrite]

theorem wrDigestLo (data : DWord) : Statement (.wrDigestLo data) := fun _ => by
  simp [encode, decode, decodeBus_busWord, decodeWrite]

theorem wrDigestHi (data : DWord) : Statement (.wrDigestHi data) := fun _ => by
  simp [encode, decode, decodeBus_busWord, decodeWrite]

theorem wrDigest64 (data : DWord) : Statement (.wrDigest64 data) := fun _ => by
  simp [encode, decode, decodeBus_busWord, decodeWrite]

theorem wrCaps (data : DWord) : Statement (.wrCaps data) := fun _ => by
  simp [encode, decode, decodeBus_busWord, decodeWrite]

theorem nop : Statement .nop := fun _ => by decide

theorem digest : Statement .digest := fun _ => by decide

theorem softReset : Statement .softReset := fun _ => by decide

theorem reservedCmd (v : DWord) : Statement (.reservedCmd v) := fun h => by
  simp [encode, decode, decodeCmd_reserved (v := v) h]

theorem rndF (pos : BitVec 4) : Statement (.rndF pos) := fun _ => by
  simp [encode, decode, decodeRound]

theorem rndG (pos : BitVec 4) : Statement (.rndG pos) := fun _ => by
  simp [encode, decode, decodeRound]

theorem rndH (pos : BitVec 4) : Statement (.rndH pos) := fun _ => by
  simp [encode, decode, decodeRound]

theorem rndI (pos : BitVec 4) : Statement (.rndI pos) := fun _ => by
  simp [encode, decode, decodeRound]

theorem phaseIdle : Statement .phaseIdle := fun _ => by decide

theorem phaseLoad : Statement .phaseLoad := fun _ => by decide

theorem phaseRound : Statement .phaseRound := fun _ => by decide

theorem phaseAccum : Statement .phaseAccum := fun _ => by decide

theorem phaseFinal : Statement .phaseFinal := fun _ => by decide

end Sys2Proof.Laws.RoundTrip
end

