-- ==== Sys2Proof/Tests/Slice0.lean ====
section
/-! SUPPORT. Tests whose expected values come from spec/95_test_vectors.md (V…) or from the rule named, and a witness
for the hypotheses of each statement. -/

namespace Sys2Proof.Tests

open Sys2Proof.Machine

/-! ## Helpers -/

/-- The outcome is a next state that passes a check. -/
def nextIs (o : Host.Outcome State Fault Refusal) (p : State → Bool) : Bool :=
  match o with
  | .next t => p t
  | _ => false

/-- The outcome is this fault. -/
def faultIs (o : Host.Outcome State Fault Refusal) (f : Fault) : Bool :=
  match o with
  | .fault g => decide (g = f)
  | _ => false

/-- The outcome is this refusal. -/
def refusalIs (o : Host.Outcome State Fault Refusal) (r : Refusal) : Bool :=
  match o with
  | .refused q => decide (q = r)
  | _ => false

/-- The bytes of "abc". -/
def abc : List Byte := [0x61#8, 0x62#8, 0x63#8]

/-- After reset, with "abc" at 0x1000 and the operands written. -/
def abcReady : State :=
  { State.reset with mem := [(0x1000, 0x61#8), (0x1001, 0x62#8), (0x1002, 0x63#8)], srcAddr := 0x1000#64, length := 3#64 }

/-- The digest of "abc" accepted: PHASE is LOAD. -/
def abcLoad : State := abcReady.start

/-- The digest of the empty message accepted, with no readable memory. -/
def emptyLoad : State := State.reset.start

/-- A state of the empty message's digest in a later phase. -/
def emptyAt (phase : BitVec 3) (j : BitVec 6) : State :=
  { emptyLoad with phase := phase, j := j, m := unpack (paddedBlock .full64 [] 0), w := rounds (unpack (paddedBlock .full64 [] 0)) iv j.toNat }

/-- The last phase of the empty message's digest, with OVERRUN set or not. -/
def emptyFinal (overrun : Bool) : State :=
  { emptyLoad with
    phase := 0b100#3, blk := 1, h := chain .full64 [] 1, status := { Status.started with overrun := overrun } }

/-- A strict instance in a length-field mode, with a LENGTH (R11). -/
def strictWith (mode : LenMode) (len : DWord) : State :=
  { State.reset with params := { lenMode := mode, strict := true, addrW := 64 }, length := len }

/-- Idle, with a region of read side effects from 0x2000 to 0x200F, and 16 bytes to digest at an address. -/
def deviceAt (src : DWord) : State :=
  { State.reset with devices := [{ base := 0x2000, size := 16 }], srcAddr := src, length := 16#64 }

/-- A state that computes one round of a group from four words and one block. -/
def roundFrom (a b c d : Word) (m : Block) : State := { State.reset with w := { a := a, b := b, c := c, d := d }, m := m }

/-- The block of the empty message (V24). -/
def emptyBlock : Block := #v[0x80#32, 0, 0, 0, 0, 0, 0, 0, 0, 0, 0, 0, 0, 0, 0, 0]

def wIs (a b c d : Word) (t : State) : Bool := decide (t.w = { a := a, b := b, c := c, d := d })

/-! ## WellFormed refuses a term that is no encoding (R85) -/

theorem test_wf_refuses_nop_as_reserved : (Instr.reservedCmd 0x0#64).wf = false := by decide
theorem test_wf_refuses_digest_as_reserved : (Instr.reservedCmd 0x1#64).wf = false := by decide
theorem test_wf_refuses_soft_reset_as_reserved : (Instr.reservedCmd 0x2#64).wf = false := by decide
theorem test_wf_reserved_low : (Instr.reservedCmd 0x3#64).wf = true := by decide
theorem test_wf_reserved_high : (Instr.reservedCmd 0x101#64).wf = true := by decide

/-! ## Decoding, word by word (30_encoding.md; the transactions of 95_test_vectors.md sections 8 and 9) -/

theorem test_decode_rdCmd : decodeBus 0x00000000000000000#68 = .rdCmd 0#64 := by decide
theorem test_decode_rdStatus : decodeBus 0x10000000000000000#68 = .rdStatus 0#64 := by decide
theorem test_decode_rdSrcAddr : decodeBus 0x20000000000000000#68 = .rdSrcAddr 0#64 := by decide
theorem test_decode_rdLength : decodeBus 0x30000000000000000#68 = .rdLength 0#64 := by decide
theorem test_decode_rdDigestLo : decodeBus 0x40000000000000000#68 = .rdDigestLo 0#64 := by decide
theorem test_decode_rdDigestHi : decodeBus 0x50000000000000000#68 = .rdDigestHi 0#64 := by decide
theorem test_decode_rdDigest64 : decodeBus 0x60000000000000000#68 = .rdDigest64 0#64 := by decide
theorem test_decode_rdCaps : decodeBus 0x70000000000000000#68 = .rdCaps 0#64 := by decide
theorem test_decode_wrCmd : decodeBus 0x80000000000000101#68 = .wrCmd 0x101#64 := by decide
theorem test_decode_wrStatus : decodeBus 0x900000000000000ff#68 = .wrStatus 0xff#64 := by decide
theorem test_decode_wrSrcAddr : decodeBus 0xafffffffffffffff0#68 = .wrSrcAddr 0xfffffffffffffff0#64 := by decide
theorem test_decode_wrLength : decodeBus 0xb2000000000000000#68 = .wrLength 0x2000000000000000#64 := by decide
theorem test_decode_wrDigestLo : decodeBus 0xc0000000000000001#68 = .wrDigestLo 1#64 := by decide
theorem test_decode_wrDigestHi : decodeBus 0xd0000000000000000#68 = .wrDigestHi 0#64 := by decide
theorem test_decode_wrDigest64 : decodeBus 0xe0000000000000005#68 = .wrDigest64 5#64 := by decide
theorem test_decode_wrCaps : decodeBus 0xf0000000000000001#68 = .wrCaps 1#64 := by decide
theorem test_decode_nop : decodeCmd 0x0000000000000000#64 = .nop := by decide
theorem test_decode_digest : decodeCmd 0x0000000000000001#64 = .digest := by decide
theorem test_decode_softReset : decodeCmd 0x0000000000000002#64 = .softReset := by decide
theorem test_decode_reservedCmd : decodeCmd 0x0000000000000101#64 = .reservedCmd 0x101#64 := by decide
theorem test_decode_rndF : decodeRound 0b001111#6 = .rndF 15#4 := by decide
theorem test_decode_rndG : decodeRound 0b010000#6 = .rndG 0#4 := by decide
theorem test_decode_rndH : decodeRound 0b100011#6 = .rndH 3#4 := by decide
theorem test_decode_rndI : decodeRound 0b111111#6 = .rndI 15#4 := by decide
theorem test_decode_phaseIdle : decode (.phase 0b000#3) = .ok .phaseIdle := by decide
theorem test_decode_phaseLoad : decode (.phase 0b001#3) = .ok .phaseLoad := by decide
theorem test_decode_phaseRound : decode (.phase 0b010#3) = .ok .phaseRound := by decide
theorem test_decode_phaseAccum : decode (.phase 0b011#3) = .ok .phaseAccum := by decide
theorem test_decode_phaseFinal : decode (.phase 0b100#3) = .ok .phaseFinal := by decide
theorem test_decode_phase_reserved : decode (.phase 0b110#3) = .error (.reservedPhase 0b110#3) := by decide
theorem test_hash_transactions :
    hashTransactions 0x4000#64 0x38#64 = [0xa0000000000004000#68, 0xb0000000000000038#68, 0x80000000000000001#68] := by
  decide

/-! ## Words of the table -/

theorem test_table_bus : decodeTableWord 8 0xA = some (.wrSrcAddr 0#64) := by decide
theorem test_table_bus_wide : decodeTableWord 72 0x10000B = some (.wrLength 0x10000#64) := by decide
theorem test_table_cmd : decodeTableWord 64 2 = some .softReset := by decide
theorem test_table_round : decodeTableWord 8 0x20 = some (.rndH 0#4) := by decide
theorem test_table_phase : decodeTableWord 3 4 = some .phaseFinal := by decide
theorem test_table_phase_reserved : decodeTableWord 3 5 = none := by decide
theorem test_fetch_word_bus : nextIs (step (State.reset.withFetchWord 8 0x7)) (fun t => decide (t.rdata = 0x4000#64)) = true := by decide
theorem test_fetch_word_round :
    nextIs (step (State.reset.withFetchWord 8 0x10)) (fun t => decide (t.w.b = 0xc3c4ac5e#32 ∧ t.j = 17#6)) = true := by
  decide
theorem test_fetch_word_phase : nextIs (step (State.reset.withFetchWord 3 4)) (fun t => t.status.done) = true := by decide

/-! ## Functions, on the spec's vectors -/

-- V10, V3a, V4a, V6a, V13, V18
theorem test_blockCount : [0, 55, 56, 119, 120, 2 ^ 64 - 1].map blockCount = [1, 1, 2, 2, 3, 2 ^ 58 + 1] := by decide
theorem test_paddedLen : [0, 55, 56, 64, 2 ^ 64 - 1].map paddedLen = [64, 64, 128, 128, 2 ^ 64 + 64] := by decide
-- V15, V16, V17
theorem test_lenField_full64 :
    [3, 2 ^ 29, 2 ^ 61 - 1, 2 ^ 61].map (lenFieldValue .full64) = [0x18#64, 0x100000000#64, 0xfffffffffffffff8#64, 0#64] := by
  decide
theorem test_lenField_low32 :
    [3, 2 ^ 29, 2 ^ 61 - 1, 2 ^ 61].map (lenFieldValue .low32) = [0x18#64, 0#64, 0xfffffff8#64, 0#64] := by decide
-- V19
theorem test_paddedBlock_abc :
    paddedBlock .full64 abc 0 = [0x61#8, 0x62#8, 0x63#8, 0x80#8] ++ List.replicate 52 0#8 ++ 0x18#8 :: List.replicate 7 0#8 := by
  decide
-- V25
theorem test_unpack_abc :
    unpack (paddedBlock .full64 abc 0) = #v[0x80636261#32, 0, 0, 0, 0, 0, 0, 0, 0, 0, 0, 0, 0, 0, 0x18#32, 0] := by decide
-- V34
theorem test_mixing :
    [mixF, mixG, mixH, mixI].map (fun f => f 0x0f0f0f0f#32 0x00ff00ff#32 0x33333333#32) =
      [0x303f303f#32, 0x03cf03cf#32, 0x3cc33cc3#32, 0xcf30cf30#32] := by decide
-- V36, V37, V39, V39a
theorem test_rotl32 :
    [rotl32 0x12345678#32 4, rotl32 0x12345678#32 23, rotl32 1#32 31, rotl32 0x12345678#32 0] =
      [0x23456781#32, 0x3c091a2b#32, 0x80000000#32, 0x12345678#32] := by decide
-- the g(j) table of section 4
theorem test_indexes :
    [indexF 15#6, indexG 16#6, indexG 31#6, indexH 32#6, indexH 47#6, indexI 48#6, indexI 63#6] =
      [15#4, 1#4, 12#4, 5#4, 2#4, 0#4, 9#4] := by decide
-- V57
theorem test_compress_empty :
    compress iv (paddedBlock .full64 [] 0) =
      { a := 0xd98c1dd4#32, b := 0x04b2008f#32, c := 0x980980e9#32, d := 0x7e42f8ec#32 } := by decide +kernel
-- V2, V41
theorem test_pack_abc :
    packLo { a := 0x98500190#32, b := 0xb04fd23c#32, c := 0x7d3f96d6#32, d := 0x727fe128#32 } = 0xb04fd23c98500190#64 := by decide
theorem test_fold_abc : fold 0xb04fd23c98500190#64 0x727fe1287d3f96d6#64 = 0xc2303314e56f9746#64 := by decide
-- V1 in RFC 1321 order (R68)
theorem test_digestBytes_empty :
    digestBytes 0x04b2008fd98c1dd4#64 0x7e42f8ec980980e9#64 =
      [0xd4#8, 0x1d#8, 0x8c#8, 0xd9#8, 0x8f#8, 0x00#8, 0xb2#8, 0x04#8,
       0xe9#8, 0x80#8, 0x09#8, 0x98#8, 0xec#8, 0xf8#8, 0x42#8, 0x7e#8] := by decide

/-! ## Memory -/

theorem test_memory_write_sorted : Memory.write [(1, 5#8), (9, 6#8)] 4 7#8 = [(1, 5#8), (4, 7#8), (9, 6#8)] := by decide
theorem test_memory_replace : Memory.write [(1, 5#8), (9, 6#8)] 9 7#8 = [(1, 5#8), (9, 7#8)] := by decide
theorem test_memory_wf_refuses_unsorted : ¬ Memory.wf [(9, 5#8), (1, 6#8)] := by decide

/-! ## The operations -/

-- V96
theorem test_rdCmd : nextIs (exec (.rdCmd 0x7#64) abcLoad) (fun t => decide (t.rdata = 0#64)) = true := by decide
-- V75, and the value of a busy block with OVERRUN (V83)
theorem test_rdStatus_reset : nextIs (exec (.rdStatus 0#64) State.reset) (fun t => decide (t.rdata = 0#64)) = true := by decide
theorem test_rdStatus_overrun :
    nextIs (exec (.rdStatus 0#64) (emptyFinal true)) (fun t => decide (t.rdata = 0x9#64)) = true := by decide
theorem test_rdSrcAddr : nextIs (exec (.rdSrcAddr 0#64) abcReady) (fun t => decide (t.rdata = 0x1000#64)) = true := by decide
theorem test_rdLength : nextIs (exec (.rdLength 0#64) abcReady) (fun t => decide (t.rdata = 3#64)) = true := by decide
theorem test_rdDigestLo :
    nextIs (exec (.rdDigestLo 0#64) { abcLoad with digestLo := 0x04b2008fd98c1dd4#64 })
      (fun t => decide (t.rdata = 0x04b2008fd98c1dd4#64)) = true := by decide
theorem test_rdDigestHi :
    nextIs (exec (.rdDigestHi 0#64) { abcLoad with digestHi := 0x7e42f8ec980980e9#64 })
      (fun t => decide (t.rdata = 0x7e42f8ec980980e9#64)) = true := by decide
-- V97
theorem test_rdDigest64 :
    nextIs (exec (.rdDigest64 0#64) { abcLoad with digestLo := 0x04b2008fd98c1dd4#64, digestHi := 0x7e42f8ec980980e9#64 })
      (fun t => decide (t.rdata = 0x7af0f86341859d3d#64)) = true := by decide
-- V76, V77
theorem test_rdCaps_default : nextIs (exec (.rdCaps 0#64) State.reset) (fun t => decide (t.rdata = 0x4000#64)) = true := by decide
theorem test_rdCaps_low32_strict_48 :
    nextIs (exec (.rdCaps 0#64) { State.reset with params := { lenMode := .low32, strict := true, addrW := 48 } })
      (fun t => decide (t.rdata = 0x3003#64)) = true := by decide
-- V81, V88
theorem test_wrCmd_reserved : nextIs (exec (.wrCmd 0x101#64) State.reset) (fun t => decide (t.status.word = 0x14#64)) = true := by decide
theorem test_wrCmd_abort :
    nextIs (exec (.wrCmd 0x2#64) abcLoad) (fun t => decide (t.status.word = 0#64 ∧ t.phase = 0#3 ∧ t.length = 0#64)) = true := by
  decide
-- V94
theorem test_wrStatus : nextIs (exec (.wrStatus 0xff#64) abcReady) (fun t => decide (t.status.word = 0#64)) = true := by decide
-- V98
theorem test_wrSrcAddr_busy :
    nextIs (exec (.wrSrcAddr 0x2000#64) abcLoad) (fun t => decide (t.srcAddr = 0x2000#64 ∧ t.lsrc = 0x1000#64)) = true := by decide
theorem test_wrLength_busy :
    nextIs (exec (.wrLength 56#64) abcLoad) (fun t => decide (t.length = 0x38#64 ∧ t.llen = 3#64)) = true := by decide
-- V95
theorem test_wrDigestLo :
    nextIs (exec (.wrDigestLo 1#64) { State.reset with digestLo := 0x04b2008fd98c1dd4#64 })
      (fun t => decide (t.digestLo = 0x04b2008fd98c1dd4#64)) = true := by decide
theorem test_wrDigestHi :
    nextIs (exec (.wrDigestHi 0#64) { State.reset with digestHi := 9#64 }) (fun t => decide (t.digestHi = 9#64)) = true := by decide
theorem test_wrDigest64 :
    nextIs (exec (.wrDigest64 5#64) State.reset) (fun t => decide (fold t.digestLo t.digestHi = 0#64)) = true := by decide
theorem test_wrCaps : nextIs (exec (.wrCaps 1#64) State.reset) (fun t => decide (capsWord t.params = 0x4000#64)) = true := by decide
-- V79, V84
theorem test_nop_idle_done :
    nextIs (exec .nop { State.reset with status := { Status.zero with done := true } })
      (fun t => decide (t.status.word = 0x2#64)) = true := by decide
theorem test_nop_busy_overruns : nextIs (exec .nop abcLoad) (fun t => decide (t.status.word = 0x9#64)) = true := by decide
-- V93: START clears ERR, ERR_CODE and OVERRUN; V89
theorem test_digest_clears :
    nextIs (exec .digest { abcReady with
        status := { busy := false, done := false, err := true, overrun := true, errCode := 2#4 } })
      (fun t => decide (t.status.word = 0x1#64 ∧ t.nblk = 1 ∧ t.h = iv ∧ t.lsrc = 0x1000#64)) = true := by decide
theorem test_digest_overflow :
    nextIs (exec .digest (strictWith .full64 0x2000000000000000#64)) (fun t => decide (t.status.word = 0x24#64)) = true := by decide
theorem test_softReset :
    nextIs (exec .softReset { abcReady with digestLo := 5#64, status := { Status.zero with err := true, errCode := 1#4 } })
      (fun t => decide (t.status.word = 0#64 ∧ t.digestLo = 0#64 ∧ t.srcAddr = 0#64)) = true := by decide
-- V87
theorem test_reservedCmd_keeps_overrun :
    nextIs (exec (.reservedCmd 0x7#64) { State.reset with status := { Status.zero with done := true, overrun := true } })
      (fun t => decide (t.status.word = 0x1C#64)) = true := by decide
-- V20 and V52, V21 and V53, V22 and V54, V23 and V56
theorem test_rndF : nextIs (exec (.rndF 0#4) (roundFrom 0x67452301#32 0xefcdab89#32 0x98badcfe#32 0x10325476#32 emptyBlock))
    (wIs 0x10325476#32 0xa5202774#32 0xefcdab89#32 0x98badcfe#32) = true := by decide
theorem test_rndF_wraps : nextIs (exec (.rndF 0#4) (roundFrom (-1) (-1) (-1) (-1) (Vector.replicate 16 (-1))))
    (wIs 0xffffffff#32 0xb5523aea#32 0xffffffff#32 0xffffffff#32) = true := by decide
theorem test_rndG : nextIs (exec (.rndG 0#4) (roundFrom 0xf56c7cf1#32 0xd6819c6a#32 0x5aa53f75#32 0x374943a7#32 emptyBlock))
    (wIs 0x374943a7#32 0x1c7d7513#32 0xd6819c6a#32 0x5aa53f75#32) = true := by decide
theorem test_rndG_wraps : nextIs (exec (.rndG 0#4) (roundFrom (-1) (-1) (-1) (-1) (Vector.replicate 16 (-1))))
    (wIs 0xffffffff#32 0xc3c4abfd#32 0xffffffff#32 0xffffffff#32) = true := by decide
theorem test_rndH : nextIs (exec (.rndH 0#4) (roundFrom 0x13707036#32 0xa2205f1f#32 0x1c31c384#32 0xae7813db#32 emptyBlock))
    (wIs 0xae7813db#32 0xdf63eaa1#32 0xa2205f1f#32 0x1c31c384#32) = true := by decide
theorem test_rndH_wraps : nextIs (exec (.rndH 0#4) (roundFrom (-1) (-1) (-1) (-1) (Vector.replicate 16 (-1))))
    (wIs 0xffffffff#32 0xffa393fe#32 0xffffffff#32 0xffffffff#32) = true := by decide
theorem test_rndI : nextIs (exec (.rndI 0#4) (roundFrom 0x3f55edfd#32 0xca7d2dbd#32 0x68d84ea2#32 0x22a31f54#32 emptyBlock))
    (wIs 0x22a31f54#32 0x93aa2577#32 0xca7d2dbd#32 0x68d84ea2#32) = true := by decide
theorem test_rndI_last : nextIs (exec (.rndI 15#4) (roundFrom (-1) (-1) (-1) (-1) (Vector.replicate 16 (-1))))
    (wIs 0xffffffff#32 0x71fd70d9#32 0xffffffff#32 0xffffffff#32) = true := by decide
theorem test_phaseIdle : nextIs (exec .phaseIdle abcReady) (fun t => decide (t.phase = 0#3)) = true := by decide
-- V25; R63
theorem test_phaseLoad_abc :
    nextIs (exec .phaseLoad abcLoad)
      (fun t => decide (t.m[0] = 0x80636261#32 ∧ t.m[14] = 0x18#32 ∧ t.w = iv ∧ t.phase = 2#3)) = true := by decide
theorem test_phaseLoad_unreadable :
    faultIs (exec .phaseLoad { abcLoad with mem := [(0x1000, 0x61#8), (0x1002, 0x63#8)] }) (.inputUnreadable 0x1001) = true := by
  decide
-- section 4, the last rounds of the empty message
theorem test_phaseRound_last :
    nextIs (exec .phaseRound { emptyLoad with
        phase := 2#3, j := 63#6, m := emptyBlock,
        w := { a := 0x30130182#32, b := 0xff4ea3eb#32, c := 0x6e10a476#32, d := 0x7246fad3#32 } })
      (fun t => decide (t.phase = 3#3 ∧ t.j = 63#6) && wIs 0x7246fad3#32 0x14e45506#32 0xff4ea3eb#32 0x6e10a476#32 t) = true := by
  decide
theorem test_phaseRound_counts : nextIs (exec .phaseRound (emptyAt 2#3 0#6)) (fun t => decide (t.j = 1#6 ∧ t.w.b = 0xa5202774#32)) = true := by
  decide
-- the ACCUM check of section 4
theorem test_phaseAccum :
    nextIs (exec .phaseAccum { emptyLoad with
        phase := 3#3, w := { a := 0x7246fad3#32, b := 0x14e45506#32, c := 0xff4ea3eb#32, d := 0x6e10a476#32 } })
      (fun t => decide (t.phase = 4#3 ∧ t.blk = 1 ∧
        t.h = { a := 0xd98c1dd4#32, b := 0x04b2008f#32, c := 0x980980e9#32, d := 0x7e42f8ec#32 })) = true := by decide
theorem test_phaseAccum_more_blocks :
    nextIs (exec .phaseAccum { emptyLoad with phase := 3#3, nblk := 2 }) (fun t => decide (t.phase = 1#3)) = true := by decide
-- R176's example, and V85
theorem test_phaseFinal_abc :
    nextIs (exec .phaseFinal { abcLoad with
        phase := 4#3, h := { a := 0x98500190#32, b := 0xb04fd23c#32, c := 0x7d3f96d6#32, d := 0x727fe128#32 } })
      (fun t => decide (t.digestLo = 0xb04fd23c98500190#64 ∧ t.digestHi = 0x727fe1287d3f96d6#64 ∧ t.phase = 0#3)) = true := by
  decide
theorem test_phaseFinal_keeps_overrun :
    nextIs (exec .phaseFinal (emptyFinal true)) (fun t => decide (t.status.word = 0xA#64)) = true := by decide

/-! ## Turns -/

/-- R64, R75: a byte that the engine read early is the one its LOAD uses, whatever the host writes there since. -/
theorem test_early_read_wins :
    nextIs (step { abcLoad with order := [.read 0] }) (fun t =>
      nextIs (exec .phaseLoad (t.place 0x1000 0xff#8)) (fun u => decide (u.m[0] = 0x80636261#32 ∧ u.taken = []))) = true := by decide
theorem test_late_read_sees_write :
    nextIs (exec .phaseLoad (abcLoad.place 0x1000 0xff#8)) (fun u => decide (u.m[0] = 0x806362ff#32)) = true := by decide

/-! ## Witnesses: a state and operands that meet the hypotheses of each statement, for each of its clauses -/

theorem witness_DecodeOfEncode : (Instr.reservedCmd 0x3#64).wf = true ∧ (Instr.rdCmd 0#64).wf = true := by decide
theorem witness_EncodeOfDecode :
    decode (.bus 0x8ffffffffffffffff#68) = .ok (.wrCmd 0xffffffffffffffff#64) ∧ decode (.cmd 3#64) = .ok (.reservedCmd 3#64) ∧
    decode (.round 63#6) = .ok (.rndI 15#4) ∧ decode (.phase 4#3) = .ok .phaseFinal := by decide
theorem witness_RoundRanges :
    (15#6).toNat < 16 ∧ (16 ≤ (16#6).toNat ∧ (31#6).toNat < 32) ∧ (32 ≤ (32#6).toNat ∧ (47#6).toNat < 48) ∧
    48 ≤ (48#6).toNat := by decide
theorem witness_StepRunsHost :
    ({ abcReady with order := [.host digestTransaction, .engine] } : State).order = .host digestTransaction :: [.engine] := rfl
theorem witness_StepRunsPhase :
    decodePhase emptyLoad.phase = .ok .phaseLoad ∧ emptyLoad.order = [] ∧
    ({ emptyLoad with order := [.engine] } : State).order = .engine :: [] := ⟨rfl, rfl, rfl⟩
theorem witness_IllegalPhase :
    5 ≤ ({ State.reset with phase := 5#3 } : State).phase.toNat ∧ ({ State.reset with phase := 5#3 } : State).order = [] ∧
    5 ≤ ({ State.reset with phase := 7#3, order := [.engine] } : State).phase.toNat := by decide
theorem witness_OutsideTurns :
    ({ State.reset with order := [.place 3 1#8] } : State).order = .place 3 1#8 :: [] ∧
    ({ State.reset with order := [.withdraw 3] } : State).order = .withdraw 3 :: [] ∧
    ({ State.reset with order := [.reset] } : State).order = .reset :: [] := ⟨rfl, rfl, rfl⟩
theorem witness_EarlyRead :
    (State.readDue { State.reset with order := [.read 0] } 0 = false) ∧ State.readDue abcLoad 2 = true ∧ State.readDue abcLoad 3 = false ∧
    abcLoad.memRead (abcLoad.lsrc.toNat + 2) = .ok 0x63#8 ∧
    State.readDue { abcLoad with mem := [] } 2 = true := by decide
-- R64 at the edges of the window: in LOAD of block 0 its bytes are due, in ROUND only those of block 1 on, and a byte
-- already read is due no more
theorem test_readDue_window :
    State.readDue { abcLoad with llen := 100#64, phase := 1#3 } 63 = true ∧
    State.readDue { abcLoad with llen := 100#64, phase := 2#3 } 63 = false ∧
    State.readDue { abcLoad with llen := 100#64, phase := 2#3 } 64 = true ∧
    State.readDue (abcLoad.take 2 0#8) 2 = false := by decide
theorem witness_EarlyRead_unreadable : ∀ b, State.memRead { abcLoad with mem := [] } 0x1002 ≠ .ok b := by
  intro b; decide +revert
theorem witness_FoldRead : State.reset.digestLo = State.reset.digestHi := rfl
theorem witness_CapsRead :
    Params.default.wf ∧ Params.wf { lenMode := .low32, strict := true, addrW := 1 } ∧
    State.reset.params = { lenMode := .full64, strict := false, addrW := 64 } := by decide
theorem witness_CapsRead_exec : exec (.wrCaps 1#64) State.reset = .next State.reset := rfl
theorem witness_ReadsChangeNothing :
    Instr.rdStatus 0#64 ∈ registerReads 0#64 ∧ exec (.rdStatus 0#64) State.reset = .next (State.reset.answer 0#64) :=
  ⟨by decide, rfl⟩
theorem witness_EngineIgnores :
    exec .phaseFinal (emptyFinal false) = .next (emptyFinal false).final ∧
    faultIs (exec .phaseLoad { abcLoad with mem := [] }) (.inputUnreadable 0x1000) = true := ⟨rfl, by decide⟩
theorem witness_Nop : State.reset.status.busy = false ∧ abcLoad.status.busy = true := ⟨rfl, rfl⟩
theorem witness_BusyCommand : abcLoad.status.busy = true ∧ (0x1#64 : DWord) ≠ 0x2#64 := by decide
theorem witness_ReservedCommand :
    State.reset.status.busy = false ∧ (0x3#64 : DWord) ≠ 0x0#64 ∧ (0x3#64 : DWord) ≠ 0x1#64 ∧ (0x3#64 : DWord) ≠ 0x2#64 := by decide
/-- The hypotheses of LengthOverflowRejected at a state. -/
abbrev overflowHyps (s : State) : Prop :=
  s.status.busy = false ∧ s.params.strict = true ∧ (s.params.lenMode = .full64 → 2 ^ 61 ≤ s.length.toNat) ∧
    (s.params.lenMode = .low32 → 2 ^ 29 ≤ s.length.toNat)
theorem witness_LengthOverflow :
    overflowHyps (strictWith .full64 0x2000000000000000#64) ∧ overflowHyps (strictWith .low32 0x20000000#64) := by decide
theorem witness_LengthOverflow_raised :
    nextIs (exec .digest (strictWith .low32 0x20000000#64)) (fun t => decide (t.status.errCode = 2#4)) = true ∧
    (strictWith .low32 0x20000000#64).status.errCode ≠ 2#4 := by decide
/-- The hypotheses of AcceptedDigestStarts at a state. -/
abbrev acceptedHyps (s : State) : Prop :=
  s.status.busy = false ∧ (s.params.strict = true → s.params.lenMode = .full64 → s.length.toNat < 2 ^ 61) ∧
    (s.params.strict = true → s.params.lenMode = .low32 → s.length.toNat < 2 ^ 29) ∧
    s.sideEffectFree s.srcAddr.toNat s.length.toNat
theorem witness_AcceptedDigest :
    acceptedHyps (strictWith .full64 0x1fffffffffffffff#64) ∧ acceptedHyps (strictWith .low32 0x1fffffff#64) ∧
    acceptedHyps (deviceAt 0x1ff0#64) ∧ acceptedHyps (deviceAt 0x2010#64) := by decide
/-- The hypotheses of SideEffectLaunchRefused at a state. -/
abbrev sideEffectHyps (s : State) : Prop :=
  s.status.busy = false ∧ (s.params.strict = true → s.params.lenMode = .full64 → s.length.toNat < 2 ^ 61) ∧
    (s.params.strict = true → s.params.lenMode = .low32 → s.length.toNat < 2 ^ 29) ∧
    ∃ r ∈ s.devices, ∃ a, r.base ≤ a ∧ a < r.base + r.size ∧ s.srcAddr.toNat ≤ a ∧ a < s.srcAddr.toNat + s.length.toNat
/-- A strict instance with the longest LENGTH it accepts, whose message overlaps the first byte of a region. -/
def strictDeviceAt (mode : LenMode) (src len : DWord) : State := { strictWith mode len with devices := [{ base := 0x2000, size := 1 }], srcAddr := src }
theorem witness_SideEffectLaunch : sideEffectHyps (deviceAt 0x1ff1#64) :=
  ⟨rfl, by decide, by decide, { base := 0x2000, size := 16 }, by simp [deviceAt], 0x2000, by decide⟩
theorem witness_SideEffectLaunch_strict :
    sideEffectHyps (strictDeviceAt .full64 0x2000#64 0x1fffffffffffffff#64) ∧
    sideEffectHyps (strictDeviceAt .low32 0x2000#64 0x1fffffff#64) :=
  ⟨⟨rfl, by decide, by decide, { base := 0x2000, size := 1 }, by simp [strictDeviceAt], 0x2000, by decide⟩,
    ⟨rfl, by decide, by decide, { base := 0x2000, size := 1 }, by simp [strictDeviceAt], 0x2000, by decide⟩⟩
theorem test_side_effect_launch_refused :
    refusalIs (exec .digest (deviceAt 0x200f#64)) (.sideEffectInput 0x200f 16) = true := by decide
theorem test_side_effect_launch_refused_strict :
    refusalIs (exec .digest (strictDeviceAt .low32 0x2000#64 0x1fffffff#64)) (.sideEffectInput 0x2000 0x1fffffff) = true := by
  decide
theorem witness_RoundOperations :
    Instr.rndI 3#4 ∈ [Instr.rndF 3#4, .rndG 3#4, .rndH 3#4, .rndI 3#4] ∧
    exec (.rndI 3#4) State.reset = .next (State.reset.setW (roundI (roundIndex 3#2 3#4) State.reset.m State.reset.w)) :=
  ⟨by decide, rfl⟩
theorem witness_Rotation : (23 : Nat) < 32 ∧ (31 : Nat) < 32 := by decide
-- L = 3 (FULL64): message bytes 0 to 2, terminator 3, zeros 4 to 55, length field 56 to 63; L = 55 has no zero byte
theorem witness_PaddedStream :
    2 < abcLoad.llen.toNat ∧ 3 = abcLoad.llen.toNat ∧ (abcLoad.llen.toNat + 1 ≤ 4 ∧ 55 < paddedLen abcLoad.llen.toNat - 8) ∧
    (paddedLen abcLoad.llen.toNat - 8 ≤ 56 ∧ 63 < paddedLen abcLoad.llen.toNat ∧ abcLoad.params.lenMode = .full64) ∧
    paddedLen 55 - 8 = 56 ∧
    (paddedLen (strictWith .low32 0#64).llen.toNat - 8 ≤ 56 ∧ 63 < paddedLen (strictWith .low32 0#64).llen.toNat ∧
      (strictWith .low32 0#64).params.lenMode = .low32) := by decide
theorem witness_PaddedLength : 55 % 64 ≤ 55 ∧ 56 ≤ 56 % 64 := by decide
theorem witness_LoadCompletes :
    ∀ i, i < abcLoad.llen.toNat → i / 64 = abcLoad.blk → ∃ b, abcLoad.msgByte i = .ok b := by
  intro i hi _
  have h : i = 0 ∨ i = 1 ∨ i = 2 := by
    have : abcLoad.llen.toNat = 3 := rfl
    omega
  rcases h with rfl | rfl | rfl
  · exact ⟨0x61#8, by decide⟩
  · exact ⟨0x62#8, by decide⟩
  · exact ⟨0x63#8, by decide⟩
theorem witness_LoadChanges : nextIs (exec .phaseLoad emptyLoad) (fun _ => true) = true ∧ emptyLoad.blk < 64 / 64 := by decide
theorem witness_Unreadable :
    0 < ({ abcLoad with mem := [] } : State).llen.toNat ∧ 0 / 64 = ({ abcLoad with mem := [] } : State).blk ∧
    (∀ b, State.msgByte { abcLoad with mem := [] } 0 ≠ .ok b) :=
  ⟨by decide, rfl, by intro b; decide +revert⟩
theorem witness_BlockWithoutMessage : emptyLoad.llen.toNat ≤ 64 * emptyLoad.blk := by decide
theorem witness_RoundStep : (emptyAt 2#3 63#6).j.toNat = 63 ∧ (emptyAt 2#3 62#6).j.toNat < 63 := by decide
theorem witness_Accum : emptyLoad.blk + 1 = emptyLoad.nblk ∧ ({ emptyLoad with nblk := 2 } : State).blk + 1 ≠ ({ emptyLoad with nblk := 2 } : State).nblk := by
  decide
theorem witness_DigestRegisters :
    exec .phaseFinal abcLoad.accum = .next abcLoad.accum.final ∧ abcLoad.accum.final.digestLo ≠ abcLoad.accum.digestLo ∧
    abcLoad.accum.final.digestHi ≠ abcLoad.accum.digestHi := ⟨rfl, by decide, by decide⟩
theorem witness_ChainingRegisters :
    exec .digest abcReady = .next abcReady.start ∧ abcReady.start.h ≠ abcReady.h ∧ abcReady.start.lsrc ≠ abcReady.lsrc ∧
    abcReady.start.llen ≠ abcReady.llen ∧ abcReady.start.nblk ≠ abcReady.nblk := ⟨rfl, by decide, by decide, by decide, by decide⟩
theorem witness_OverrunSticky :
    exec .digest { abcReady with status := { Status.zero with done := true, overrun := true } } = .next abcReady.start ∧
    abcReady.start.status.overrun = false := ⟨rfl, rfl⟩
theorem witness_InputMemory : exec (.wrSrcAddr 1#64) abcReady = .next (abcReady.setSrcAddr 1#64) := rfl

theorem witness_ModelFields :
    exec (.rdLength 0#64) abcReady = .next (abcReady.answer 3#64) ∧ (abcReady.answer 3#64).rdata ≠ abcReady.rdata ∧
    exec .softReset abcReady = .next abcReady.resetAction ∧ abcReady.resetAction.draws ≠ abcReady.draws ∧
    exec .softReset (abcLoad.take 0 0x61#8) = .next (abcLoad.take 0 0x61#8).resetAction ∧
    (abcLoad.take 0 0x61#8).resetAction.taken ≠ (abcLoad.take 0 0x61#8).taken := ⟨rfl, by decide, rfl, by decide, rfl, by decide⟩

/-! The moves of PHASE (R23), each from a state that meets the invariant -/

theorem witness_move_start : State.Inv { abcReady with order := [.host digestTransaction] } ∧
    nextIs (step { abcReady with order := [.host digestTransaction] }) (fun t => decide (t.phase = 1#3)) = true := by decide
theorem witness_move_load : abcLoad.Inv ∧ nextIs (step abcLoad) (fun t => decide (t.phase = 2#3)) = true := by decide
theorem witness_move_accum : State.Inv { emptyLoad with phase := 2#3, j := 63#6 } ∧
    nextIs (step { emptyLoad with phase := 2#3, j := 63#6 }) (fun t => decide (t.phase = 3#3)) = true := by decide
theorem witness_move_next_block : State.Inv { emptyLoad with phase := 3#3, llen := 56#64, nblk := 2 } ∧
    nextIs (step { emptyLoad with phase := 3#3, llen := 56#64, nblk := 2 }) (fun t => decide (t.phase = 1#3)) = true := by decide
theorem witness_move_final : State.Inv { emptyLoad with phase := 3#3 } ∧
    nextIs (step { emptyLoad with phase := 3#3 }) (fun t => decide (t.phase = 4#3)) = true := by decide
theorem witness_move_idle : State.Inv { emptyLoad with phase := 4#3, blk := 1 } ∧
    nextIs (step { emptyLoad with phase := 4#3, blk := 1 }) (fun t => decide (t.phase = 0#3)) = true := by decide
theorem witness_move_abort : State.Inv { abcLoad with order := [.host softResetTransaction] } ∧
    nextIs (step { abcLoad with order := [.host softResetTransaction] }) (fun t => decide (t.phase = 0#3)) = true := by decide
theorem witness_StepKeepsInvariant : State.reset.Inv ∧ step State.reset = .next State.reset := ⟨by decide, rfl⟩
theorem witness_StatusValues : State.Inv { State.reset with status := { Status.zero with err := true, errCode := 2#4 } } := by decide

/-! The digest of "abc" in progress -/

theorem abc_held (s : State) (h : s.mem = abcReady.mem) (hp : s.params = abcReady.params) : s.holdsMessage 0x1000 abc := by
  intro i hi
  have hi' : i = 0 ∨ i = 1 ∨ i = 2 := by
    have : abc.length = 3 := rfl
    omega
  rcases hi' with rfl | rfl | rfl <;> simp only [State.memRead, State.memByte, h, hp] <;> decide
theorem witness_StartBegins :
    abcReady.status.busy = false ∧ abcReady.length.toNat = abc.length ∧ abcReady.holdsMessage abcReady.srcAddr.toNat abc ∧
    (abcReady.params.strict = true → abcReady.length.toNat ≤ lengthLimit abcReady.params.lenMode) ∧
    abcReady.sideEffectFree abcReady.srcAddr.toNat abcReady.length.toNat :=
  ⟨rfl, rfl, abc_held _ rfl rfl, by decide, by decide⟩
theorem witness_Digesting : abcLoad.Digesting abc :=
  ⟨rfl, rfl, rfl, fun i hi _ => abc_held abcReady rfl rfl i hi, .inl ⟨rfl, by decide, rfl⟩⟩
theorem witness_DigestTakesExactSteps :
    abcLoad.Digesting abc ∧ abcLoad.phase = 1#3 ∧ abcLoad.blk = 0 ∧ abcLoad.order = [] := ⟨witness_Digesting, rfl, rfl, rfl⟩
/-- The digest of "abc" in progress, with a host write just past the message to come. -/
theorem witness_StepAdvances :
    ({ abcLoad with order := [.place 0x1003 0#8] } : State).Digesting abc ∧
    ∀ turn rest, ({ abcLoad with order := [.place 0x1003 0#8] } : State).order = turn :: rest →
      ({ abcLoad with order := [.place 0x1003 0#8] } : State).leavesDigest turn := by
  refine ⟨⟨rfl, rfl, rfl, fun i hi _ => abc_held abcReady rfl rfl i hi, .inl ⟨rfl, by decide, rfl⟩⟩, ?_⟩
  rintro turn rest h
  cases h
  simp only [State.leavesDigest]
  decide
/-- Each kind of turn that leaves the digest alone, at the edges of the message's 3 bytes. -/
theorem witness_leavesDigest :
    abcLoad.leavesDigest .engine ∧ abcLoad.leavesDigest (.read 0) ∧ abcLoad.leavesDigest (.host digestTransaction) ∧
    abcLoad.leavesDigest (.place 0xfff 0#8) ∧ abcLoad.leavesDigest (.place 0x1003 0#8) ∧ abcLoad.leavesDigest (.withdraw 0x1003) ∧
    ¬ abcLoad.leavesDigest (.place 0x1002 0#8) ∧ ¬ abcLoad.leavesDigest (.host softResetTransaction) := by
  refine ⟨trivial, trivial, ?_, ?_, ?_, ?_, ?_, ?_⟩ <;> simp only [State.leavesDigest] <;> decide
/-- The last step: the block that has digested the empty message is in FINAL. -/
theorem witness_Digesting_final : (emptyFinal false).Digesting [] :=
  ⟨rfl, rfl, rfl, fun i hi _ => absurd hi (Nat.not_lt_zero i), .inr (.inr (.inr ⟨rfl, rfl, rfl⟩))⟩
/-- Idle, with the transactions of `HASH 0x1000, 3` to come and then an engine turn. -/
def abcHash : State := { abcReady with order := (hashTransactions 0x1000#64 3#64).map Turn.host ++ [.engine] }
theorem witness_HashBegins :
    abcHash.status.busy = false ∧ (3#64 : DWord).toNat = abc.length ∧ abcHash.holdsMessage (0x1000#64 : DWord).toNat abc ∧
    abcHash.params.strict = false ∧ abcHash.sideEffectFree (0x1000#64 : DWord).toNat (3#64 : DWord).toNat ∧
    abcHash.order = (hashTransactions 0x1000#64 3#64).map Turn.host ++ [.engine] :=
  ⟨rfl, rfl, abc_held _ rfl rfl, rfl, by decide, rfl⟩
theorem witness_ModesAgree : (List.replicate (2 ^ 29 - 1) 0#8).length < 2 ^ 29 := by rw [List.length_replicate]; decide

end Sys2Proof.Tests
end

