-- ==== Sys2Proof/Proofs/RotationAndRoms.lean ====
section
/-! PROOF. The rotation moves each bit to its place (spec/00_scope.md R14), and the ROMs read out as their tables
(spec/42_rounds.md R141, R142). -/

namespace Sys2Proof.Machine

/-- A bit that stays below bit 32 comes from the left shift: the right shift has only zeros there (R14). -/
theorem rotl32_getLsbD_add (x : Word) {n i : Nat} (h : i + n < 32) : (rotl32 x n).getLsbD (i + n) = x.getLsbD i := by
  have out : x.getLsbD (32 - n + (i + n)) = false := BitVec.getLsbD_of_ge x _ (by omega)
  have hi : i < 32 := by omega
  simp [rotl32, out, h, hi]

/-- A bit that passes bit 31 comes from the right shift: the left shift has only zeros there (R14). -/
theorem rotl32_getLsbD_wrap (x : Word) {n i : Nat} (hn : n < 32) (hi : i < 32) (h : 32 ≤ i + n) :
    (rotl32 x n).getLsbD (i + n - 32) = x.getLsbD i := by
  have shifted : i + n - 32 < n := by omega
  have source : 32 - n + (i + n - 32) = i := by omega
  simp [rotl32, shifted, source]

theorem rotl32_getLsbD_mod (x : Word) {n i : Nat} (hn : n < 32) (hi : i < 32) :
    (rotl32 x n).getLsbD ((i + n) % 32) = x.getLsbD i := by
  rcases Nat.lt_or_ge (i + n) 32 with h | h
  · rw [Nat.mod_eq_of_lt h, rotl32_getLsbD_add x h]
  · rw [show (i + n) % 32 = i + n - 32 by omega, rotl32_getLsbD_wrap x hn hi h]

/-- A table of 64 entries, read at the addresses 0 to 63 in order, reads out as itself. -/
theorem map_getD_range_of_length {α : Type} (table : List α) (d : α) (h : table.length = 64) :
    ((List.range 64).map fun j => table.getD (BitVec.ofNat 6 j).toNat d) = table := by
  refine List.ext_getElem (by simp [h]) fun j _ hj => ?_
  have addr : j % 64 = j := Nat.mod_eq_of_lt (h ▸ hj)
  simp [addr, hj]

theorem kRom_table :
    ((List.range 64).map fun j => kRom (BitVec.ofNat 6 j)) = kRows0 ++ kRows1 ++ kRows2 ++ kRows3 :=
  map_getD_range_of_length _ _ rfl

theorem rRom_table :
    ((List.range 64).map fun j => rRom (BitVec.ofNat 6 j)) = rRows0 ++ rRows1 ++ rRows2 ++ rRows3 :=
  map_getD_range_of_length _ _ rfl

/-- No round rotates by 0 or by 32 or more (R136). -/
theorem rRom_bounds (j : BitVec 6) : 4 ≤ rRom j ∧ rRom j ≤ 23 := by
  revert j
  decide

/-- Settles O34: the rotation by the bit's two cases, the tables by reading each ROM out in order. -/
theorem rotationAndRomTables : Obligations.RotationAndRomTables :=
  ⟨fun x _ _ hn hi => rotl32_getLsbD_mod x hn hi, rRom_bounds, kRom_table, rRom_table⟩

end Sys2Proof.Machine
end

