-- ==== Sys2Proof/Proofs/Writers.lean ====
section
/-! PROOF. Which operations write the registers of a digest and the model's own fields (spec/10_state.md R20, R25, R26,
R36, R39): one lemma sorts the operations by these fields, and each statement reads off its own. -/

namespace Sys2Proof.Machine

/-- `i` has led from `s` to `t` as an operation that takes no part in the course of a digest does: what a digest is
made of, the parameters and the outside world are left, OVERRUN is not cleared, and the read-data lines change in a
register read only. -/
structure LeavesDigest (i : Instr) (s t : State) : Prop where
  digestLo : t.digestLo = s.digestLo
  digestHi : t.digestHi = s.digestHi
  h : t.h = s.h
  lsrc : t.lsrc = s.lsrc
  llen : t.llen = s.llen
  nblk : t.nblk = s.nblk
  taken : t.taken = s.taken
  draws : t.draws = s.draws
  overrun : s.status.overrun = true → t.status.overrun = true
  rdata : t.rdata ≠ s.rdata → ∃ d, i ∈ registerReads d
  outside : s.keepsOutside t

/-- An operation leaves the digest, or is the reset action, START, LOAD, ACCUM or FINAL. -/
theorem exec_leavesDigest_or {i : Instr} {s t : State} (h : exec i s = .next t) :
    LeavesDigest i s t ∨
    ((i = .softReset ∨ i = .wrCmd 2#64) ∧ t = s.resetAction) ∨
    ((s.status.busy = false ∧ (i = .digest ∨ i = .wrCmd 1#64)) ∧ t = s.start) ∨
    (i = .phaseLoad ∧ ∃ bytes, t = s.loadBlock bytes) ∨
    (i = .phaseAccum ∧ t = s.accum) ∨
    (i = .phaseFinal ∧ t = s.final) := by
  rcases exec_next h with rfl | ⟨d, v, hi, rfl⟩ | ⟨v, -, rfl⟩ | ⟨v, -, rfl⟩ | ⟨-, rfl⟩ | ⟨-, rfl⟩ | ⟨-, -, -, -, rfl⟩ |
    ⟨hb, hi, -, rfl⟩ | ⟨hi, rfl⟩ | ⟨-, q, rfl⟩ | ⟨hi, bytes, -, rfl⟩ | ⟨-, rfl⟩ | ⟨hi, rfl⟩ | ⟨hi, rfl⟩
  · exact .inl (by constructor <;> simp)
  · exact .inl ⟨rfl, rfl, rfl, rfl, rfl, rfl, rfl, rfl, id, fun _ => ⟨d, hi⟩, rfl, rfl, rfl⟩
  iterate 5 · exact .inl (by constructor <;> simp)
  · exact .inr (.inr (.inl ⟨⟨hb, hi⟩, rfl⟩))
  · exact .inr (.inl ⟨hi, rfl⟩)
  · exact .inl (by constructor <;> simp)
  · exact .inr (.inr (.inr (.inl ⟨hi, bytes, rfl⟩)))
  · exact .inl (by constructor <;> simp)
  · exact .inr (.inr (.inr (.inr (.inl ⟨hi, rfl⟩))))
  · exact .inr (.inr (.inr (.inr (.inr ⟨hi, rfl⟩))))

/-- Settles O46: of the operations that take part in a digest, START, LOAD and ACCUM leave the digest registers. -/
theorem digestRegistersOnlyByFinalOrReset : Obligations.DigestRegistersOnlyByFinalOrReset := by
  intro i s t h changed
  rcases exec_leavesDigest_or h with q | ⟨hi, -⟩ | ⟨-, rfl⟩ | ⟨-, bytes, rfl⟩ | ⟨-, rfl⟩ | ⟨hi, -⟩
  · simp [q.digestLo, q.digestHi] at changed
  · exact .inr hi
  · simp at changed
  · simp at changed
  · simp at changed
  · exact .inl hi

/-- Settles O47: LOAD and FINAL leave H and what START latches, and ACCUM writes H alone of them. -/
theorem chainingRegistersWriters : Obligations.ChainingRegistersWriters := by
  intro i s t h
  rcases exec_leavesDigest_or h with q | ⟨hi, -⟩ | ⟨hi, -⟩ | ⟨-, bytes, rfl⟩ | ⟨hi, rfl⟩ | ⟨-, rfl⟩
  · simp [q.h, q.lsrc, q.llen, q.nblk]
  · tauto
  · tauto
  · simp
  · simp [hi]
  · simp

/-- Settles O48: LOAD, ACCUM and FINAL keep OVERRUN, so only the reset action and START, which sets BUSY, clear it. -/
theorem overrunIsSticky : Obligations.OverrunIsSticky := by
  intro i s t h set clear
  rcases exec_leavesDigest_or h with q | ⟨hi, -⟩ | ⟨⟨hb, hi⟩, rfl⟩ | ⟨-, bytes, rfl⟩ | ⟨-, rfl⟩ | ⟨-, rfl⟩
  · simp [q.overrun set] at clear
  · tauto
  · exact .inr (.inr ⟨hb, hi, rfl⟩)
  · simp [set] at clear
  · simp [set] at clear
  · simp [set] at clear

/-- No operation changes the parameters, the platform or the turns to come. -/
theorem exec_keepsOutside {i : Instr} {s t : State} (h : exec i s = .next t) : s.keepsOutside t := by
  rcases exec_leavesDigest_or h with q | ⟨-, rfl⟩ | ⟨-, rfl⟩ | ⟨-, bytes, rfl⟩ | ⟨-, rfl⟩ | ⟨-, rfl⟩
  · exact q.outside
  all_goals exact ⟨rfl, rfl, rfl⟩

/-- Settles O50: the reset action alone draws free values, and with START and LOAD it alone drops bytes read early. -/
theorem modelFieldsFrame : Obligations.ModelFieldsFrame := by
  intro i s t h
  refine ⟨exec_keepsOutside h, ?_⟩
  rcases exec_leavesDigest_or h with q | ⟨hi, rfl⟩ | ⟨hi, rfl⟩ | ⟨hi, bytes, rfl⟩ | ⟨-, rfl⟩ | ⟨-, rfl⟩
  · exact ⟨q.rdata, fun n => absurd q.draws n, fun n => absurd q.taken n⟩
  · exact ⟨fun n => absurd rfl n, fun _ => hi, fun _ => by tauto⟩
  · exact ⟨fun n => absurd rfl n, fun n => absurd rfl n, fun _ => by tauto⟩
  · exact ⟨fun n => absurd rfl n, fun n => absurd rfl n, fun _ => .inl hi⟩
  · simp
  · simp

end Sys2Proof.Machine
end

