-- ==== Sys2Proof/Proofs/Turns.lean ====
section
/-! PROOF. A step as one of a few changes of the state without its turn (spec/20_memory.md R74). A host transaction
never runs a step of the sequencer, so an operation in format PHASE is always the one of the PHASE the block is in (R170). -/

namespace Sys2Proof.Machine

theorem decodeBus_encode (word : BusWord) : ∃ u, encode (decodeBus word) = .bus u := by
  simp only [decodeBus]
  split
  · unfold decodeWrite; split <;> exact ⟨_, rfl⟩
  · unfold decodeRead; split <;> exact ⟨_, rfl⟩

/-- The engine's operation is the one whose encoding is PHASE (R86). -/
theorem encode_of_decodePhase {p : BitVec 3} {i : Instr} (h : decodePhase p = .ok i) : encode i = .phase p := by
  rcases decodePhase_ok h with ⟨rfl, rfl⟩ | ⟨rfl, rfl⟩ | ⟨rfl, rfl⟩ | ⟨rfl, rfl⟩ | ⟨rfl, rfl⟩ <;> rfl

/-- Operation `i` may run in `s`: if it is a step of the sequencer, it is the step of the phase `s` is in. -/
def State.admits (s : State) (i : Instr) : Prop := ∀ p, encode i = .phase p → s.phase = p

/-- A step runs an operation that its state admits, or it is a turn of the outside world. -/
theorem step_exec_or_outside {s t : State} (h : step s = .next t) : ∃ rest,
    (∃ i, (s.turnsLeft rest).admits i ∧ exec i (s.turnsLeft rest) = .next t) ∨
    t = s.turnsLeft rest ∨
    (∃ i b, (s.turnsLeft rest).readDue i = true ∧ t = (s.turnsLeft rest).take i b) ∨
    (∃ a v, t = (s.turnsLeft rest).place a v) ∨
    (∃ a, t = (s.turnsLeft rest).withdraw a) ∨
    t = (s.turnsLeft rest).resetAction := by
  rcases step_cases h with ⟨rest, i, -, hi, he⟩ | ⟨rest, word, -, he⟩ | ⟨rest, i, -, he⟩ | ⟨rest, a, v, -, rfl⟩ |
    ⟨rest, a, -, rfl⟩ | ⟨rest, -, rfl⟩
  · refine ⟨rest, .inl ⟨i, fun p hp => ?_, he⟩⟩
    simpa [encode_of_decodePhase hi] using hp
  · obtain ⟨u, hu⟩ := decodeBus_encode word
    exact ⟨rest, .inl ⟨_, fun p hp => by simp [hu] at hp, he⟩⟩
  · refine ⟨rest, .inr ?_⟩
    rcases earlyRead_cases i (s.turnsLeft rest) with ⟨-, e⟩ | ⟨b, due, -, e⟩ | ⟨-, e⟩ <;> rw [e] at he <;> cases he
    · exact .inl rfl
    · exact .inr (.inl ⟨i, b, due, rfl⟩)
  · exact ⟨rest, .inr (.inr (.inr (.inl ⟨a, v, rfl⟩)))⟩
  · exact ⟨rest, .inr (.inr (.inr (.inr (.inl ⟨a, rfl⟩))))⟩
  · exact ⟨rest, .inr (.inr (.inr (.inr (.inr rfl))))⟩

end Sys2Proof.Machine
end

