-- ==== Sys2Proof/Proofs/Invariant.lean ====
section
/-! PROOF. The invariant of the reachable states (spec/10_state.md R51): one lemma for each update of the state, then
the step; and the moves of PHASE (R23). -/

namespace Sys2Proof.Machine

section Updates

variable {s : State}

/-- The block is busy exactly outside IDLE, and idle exactly in IDLE (R33). -/
theorem State.Inv.phase_of_idle (hs : s.Inv) (hb : s.status.busy = false) : s.phase = 0b000#3 := by
  obtain ⟨⟨busy, -⟩, -⟩ := hs
  by_contra hp
  simp [busy.2 hp] at hb

/-- A message byte read early belongs to a block of the digest (R25, R64). -/
theorem State.Inv.takenBlock_lt (hs : s.Inv) {c : Host.Cell} (hc : c ∈ s.taken) : c.1 / 64 < s.nblk := by
  obtain ⟨-, ⟨-, count, -⟩, ⟨-, -, taken⟩, -⟩ := hs
  obtain ⟨hb, hlt, -⟩ := taken c hc
  rw [(count hb).1, blockCount]
  omega

theorem State.Inv.turnsLeft (hs : s.Inv) (rest : List Turn) : (s.turnsLeft rest).Inv := hs

theorem State.Inv.answer (hs : s.Inv) (v : DWord) : (s.answer v).Inv := hs

theorem State.Inv.setSrcAddr (hs : s.Inv) (v : DWord) : (s.setSrcAddr v).Inv := hs

theorem State.Inv.setLength (hs : s.Inv) (v : DWord) : (s.setLength v).Inv := hs

theorem State.Inv.setW (hs : s.Inv) (q : Quad) : (s.setW q).Inv := hs

theorem State.Inv.place (hs : s.Inv) (a : Nat) (v : Byte) : (s.place a v).Inv := by
  obtain ⟨hst, hseq, ⟨mem, input⟩, hp⟩ := hs
  exact ⟨hst, hseq, ⟨Memory.wf_write a v mem, input⟩, hp⟩

theorem State.Inv.withdraw (hs : s.Inv) (a : Nat) : (s.withdraw a).Inv := by
  obtain ⟨hst, hseq, ⟨mem, input⟩, hp⟩ := hs
  exact ⟨hst, hseq, ⟨Memory.wf_erase a mem, input⟩, hp⟩

/-- A byte is kept only where its read is due (R64). -/
theorem State.Inv.take (hs : s.Inv) {i : Nat} (due : s.readDue i = true) (b : Byte) : (s.take i b).Inv := by
  obtain ⟨hst, hseq, ⟨mem, wf, taken⟩, hp⟩ := hs
  obtain ⟨hb, hlt, hload, -⟩ := (s.readDue_iff i).1 due
  refine ⟨hst, hseq, ⟨mem, Memory.wf_write i b wf, fun c hc => ?_⟩, hp⟩
  rcases Memory.mem_write hc with rfl | hc
  · exact ⟨hb, hlt, hload⟩
  · exact taken c hc

theorem State.Inv.overrun (hs : s.Inv) (hb : s.status.busy = true) : s.overrun.Inv := by
  obtain ⟨⟨busy, excl, noErr, code, done, -⟩, rest⟩ := hs
  exact ⟨⟨busy, excl, noErr, code, done, fun idle => by simp [hb] at idle⟩, rest⟩

theorem State.Inv.reject (hs : s.Inv) (hb : s.status.busy = false) {code : BitVec 4}
    (hc : code = 0x1#4 ∨ code = 0x2#4) : (s.reject code).Inv := by
  obtain ⟨⟨busy, -⟩, rest⟩ := hs
  exact ⟨⟨busy, by simp [hb], by simp, fun _ => hc, by simp, by simp⟩, rest⟩

theorem State.Inv.resetAction (hs : s.Inv) : s.resetAction.Inv := by
  obtain ⟨-, -, ⟨mem, -⟩, hp⟩ := hs
  exact ⟨by simp [State.StatusInv], by simp [State.SequencerInv], ⟨mem, by simp⟩, hp⟩

theorem State.Inv.start (hs : s.Inv) : s.start.Inv := by
  obtain ⟨-, -, ⟨mem, -⟩, hp⟩ := hs
  exact ⟨by simp [State.StatusInv], by simp [State.SequencerInv, blockCount], ⟨mem, by simp⟩, hp⟩

/-- LOAD uses up the bytes of its block that were read early, so those kept are of later blocks (R64). -/
theorem State.Inv.loadBlock (hs : s.Inv) (hph : s.phase = 0b001#3) (bytes : List Byte) : (s.loadBlock bytes).Inv := by
  obtain ⟨⟨busy, hst⟩, ⟨-, count, blk, -⟩, ⟨mem, wf, taken⟩, hp⟩ := hs
  refine ⟨⟨?_, hst⟩, ⟨by simp, count, fun _ => blk (.inl hph), by simp⟩,
    ⟨mem, Memory.wf_keepFrom _ wf, fun c hc => ?_⟩, hp⟩
  · simp [busy, hph]
  · obtain ⟨hc, hlo⟩ := Memory.mem_keepFrom.1 hc
    obtain ⟨hb, hlt, -⟩ := taken c hc
    refine ⟨hb, hlt, ?_⟩
    simp [State.nextLoad]
    omega

/-- From the last round the block goes to ACCUM of the same block (R173). -/
theorem State.Inv.nextRound (hs : s.Inv) (hph : s.phase = 0b010#3) : s.nextRound.Inv := by
  unfold State.nextRound
  split
  · obtain ⟨⟨busy, hst⟩, ⟨-, count, blk, -⟩, ⟨mem, wf, taken⟩, hp⟩ := hs
    refine ⟨⟨?_, hst⟩, ⟨by simp, count, fun _ => blk (.inr (.inl hph)), by simp⟩, ⟨mem, wf, ?_⟩, hp⟩
    · simp [busy, hph]
    · simpa [State.nextLoad, hph] using taken
  · exact hs

/-- ACCUM of the last block goes to FINAL, where no byte read early is left; any other block goes to LOAD (R174). -/
theorem State.Inv.accum (hs : s.Inv) (hph : s.phase = 0b011#3) : s.accum.Inv := by
  have inBlocks := fun c => hs.takenBlock_lt (c := c)
  obtain ⟨⟨busy, hst⟩, ⟨-, count, blk, -⟩, ⟨mem, wf, taken⟩, hp⟩ := hs
  have hblk := blk (.inr (.inr hph))
  have hb : s.status.busy = true := busy.2 (by simp [hph])
  simp only [State.nextLoad, hph] at taken
  by_cases last : s.blk + 1 = s.nblk
  · refine ⟨⟨by simp [hb, last], hst⟩, ⟨by simp [last], count, by simp [last], by simp [last]⟩,
      ⟨mem, wf, fun c hc => ?_⟩, hp⟩
    have := inBlocks c hc
    have := (taken c hc).2.2
    simp at this
    omega
  · refine ⟨⟨by simp [hb, last], hst⟩, ⟨by simp [last], count, ?_, by simp [last]⟩, ⟨mem, wf, ?_⟩, hp⟩
    · simp; omega
    · simpa [State.nextLoad, last] using taken

/-- In FINAL no byte read early is left, as no block is to come (R64, R176). -/
theorem State.Inv.final (hs : s.Inv) (hph : s.phase = 0b100#3) : s.final.Inv := by
  have inBlocks := fun c => hs.takenBlock_lt (c := c)
  obtain ⟨⟨busy, excl, noErr, code, -⟩, ⟨-, -, -, hblk⟩, ⟨mem, wf, taken⟩, hp⟩ := hs
  obtain ⟨-, herr⟩ := excl (busy.2 (by simp [hph]))
  refine ⟨⟨by simp, by simp, noErr, code, fun _ => herr, by simp⟩, ⟨by simp, by simp, by simp, by simp⟩,
    ⟨mem, wf, fun c hc => ?_⟩, hp⟩
  have := inBlocks c hc
  have := (taken c hc).2.2
  simp [State.nextLoad, hph, hblk hph] at this
  omega

end Updates

/-- An operation that a state with the invariant admits keeps it. -/
theorem exec_keepsInv {i : Instr} {s t : State} (hs : s.Inv) (adm : s.admits i) (h : exec i s = .next t) : t.Inv := by
  rcases exec_next h with rfl | ⟨d, v, -, rfl⟩ | ⟨v, -, rfl⟩ | ⟨v, -, rfl⟩ | ⟨hb, rfl⟩ | ⟨hb, rfl⟩ | ⟨hb, -, -, -, rfl⟩ |
    ⟨-, -, -, rfl⟩ | ⟨-, rfl⟩ | ⟨-, q, rfl⟩ | ⟨rfl, bytes, -, rfl⟩ | ⟨rfl, rfl⟩ | ⟨rfl, rfl⟩ | ⟨rfl, rfl⟩
  · exact hs
  · exact hs.answer v
  · exact hs.setSrcAddr v
  · exact hs.setLength v
  · exact hs.overrun hb
  · exact hs.reject hb (.inl rfl)
  · exact hs.reject hb (.inr rfl)
  · exact hs.start
  · exact hs.resetAction
  · exact hs.setW q
  · exact hs.loadBlock (adm _ rfl) bytes
  · exact (hs.setW _).nextRound (adm _ rfl)
  · exact hs.accum (adm _ rfl)
  · exact hs.final (adm _ rfl)

/-- Settles O52: each turn leaves a state with the invariant, and every operation and outside change keeps it. -/
theorem stepKeepsInvariant : Obligations.StepKeepsInvariant := by
  intro s t hs h
  obtain ⟨rest, ⟨i, adm, he⟩ | rfl | ⟨i, b, due, rfl⟩ | ⟨a, v, rfl⟩ | ⟨a, rfl⟩ | rfl⟩ := step_exec_or_outside h
  all_goals have hs := hs.turnsLeft rest
  · exact exec_keepsInv hs adm he
  · exact hs
  · exact hs.take due b
  · exact hs.place a v
  · exact hs.withdraw a
  · exact hs.resetAction

/-- Settles O53: the state after reset is closed, and the invariant of a closed state is decidable. -/
theorem resetMeetsInvariant : Obligations.ResetMeetsInvariant := by
  unfold Obligations.ResetMeetsInvariant
  decide

/-- Settles O54: at reset no turn is to come, and the engine's step in IDLE waits. -/
theorem resetValues : Obligations.ResetValues := ⟨rfl, by decide, rfl, rfl, rfl, rfl, rfl⟩

/-- The moves of PHASE (R23). -/
def State.movesPhase (s t : State) : Prop :=
  (s.phase = 0b000#3 ∧ t.phase = 0b001#3) ∨
  (s.phase = 0b001#3 ∧ t.phase = 0b010#3) ∨
  (s.phase = 0b010#3 ∧ t.phase = 0b011#3 ∧ s.j = 63#6) ∨
  (s.phase = 0b011#3 ∧ t.phase = 0b001#3 ∧ s.blk + 1 < s.nblk) ∨
  (s.phase = 0b011#3 ∧ t.phase = 0b100#3 ∧ s.blk + 1 = s.nblk) ∨
  (s.phase = 0b100#3 ∧ t.phase = 0b000#3 ∧ t.status.done = true) ∨
  (t.phase = 0b000#3 ∧ t.status = Status.zero ∧ t.digestLo = 0#64 ∧ t.digestHi = 0#64)

theorem State.movesPhase_start {s : State} (hs : s.Inv) (hb : s.status.busy = false) : s.movesPhase s.start :=
  .inl ⟨hs.phase_of_idle hb, rfl⟩

theorem State.movesPhase_resetAction (s : State) : s.movesPhase s.resetAction := by simp [State.movesPhase]

theorem State.movesPhase_nextRound {s : State} (hph : s.phase = 0b010#3) (ne : s.nextRound.phase ≠ s.phase) :
    s.movesPhase s.nextRound := by
  have last : s.j = 63#6 := by
    by_contra hj
    simp [hj] at ne
  exact .inr (.inr (.inl ⟨hph, by simp [last], last⟩))

theorem State.movesPhase_accum {s : State} (hs : s.Inv) (hph : s.phase = 0b011#3) : s.movesPhase s.accum := by
  obtain ⟨-, ⟨-, -, blk, -⟩, -⟩ := hs
  have hlt := blk (.inr (.inr hph))
  by_cases last : s.blk + 1 = s.nblk
  · exact .inr (.inr (.inr (.inr (.inl ⟨hph, by simp [last], last⟩))))
  · exact .inr (.inr (.inr (.inl ⟨hph, by simp [last], by omega⟩)))

/-- An operation that a state with the invariant admits moves PHASE as R23 says, or leaves it. -/
theorem exec_movesPhase {i : Instr} {s t : State} (hs : s.Inv) (adm : s.admits i) (h : exec i s = .next t)
    (ne : t.phase ≠ s.phase) : s.movesPhase t := by
  rcases exec_next h with rfl | ⟨d, v, -, rfl⟩ | ⟨v, -, rfl⟩ | ⟨v, -, rfl⟩ | ⟨-, rfl⟩ | ⟨-, rfl⟩ | ⟨-, -, -, -, rfl⟩ |
    ⟨hb, -, -, rfl⟩ | ⟨-, rfl⟩ | ⟨-, q, rfl⟩ | ⟨rfl, bytes, -, rfl⟩ | ⟨rfl, rfl⟩ | ⟨rfl, rfl⟩ | ⟨rfl, rfl⟩
  iterate 7 · exact absurd rfl ne
  · exact State.movesPhase_start hs hb
  · exact s.movesPhase_resetAction
  · exact absurd rfl ne
  · exact .inr (.inl ⟨adm _ rfl, rfl⟩)
  · exact State.movesPhase_nextRound (s := s.setW (roundAt s.j s.m s.w)) (adm _ rfl) ne
  · exact State.movesPhase_accum hs (adm _ rfl)
  · exact .inr (.inr (.inr (.inr (.inr (.inl ⟨adm _ rfl, rfl, rfl⟩)))))

/-- Settles O51: of the turns of the outside world hardware reset alone moves PHASE. -/
theorem phaseMoves : Obligations.PhaseMoves := by
  intro s t hs h ne
  obtain ⟨rest, ⟨i, adm, he⟩ | rfl | ⟨i, b, due, rfl⟩ | ⟨a, v, rfl⟩ | ⟨a, rfl⟩ | rfl⟩ := step_exec_or_outside h
  · exact exec_movesPhase (s := s.turnsLeft rest) (hs.turnsLeft rest) adm he ne
  iterate 4 · exact absurd rfl ne
  · exact (s.turnsLeft rest).movesPhase_resetAction

end Sys2Proof.Machine
end

