-- ==== Sys2Proof/Proofs/EngineInputs.lean ====
section
/-! PROOF. The engine works on LSRC and LLEN, never on SRC_ADDR, LENGTH or the read-data lines (spec/10_state.md R26):
each of its operations does the same whatever those hold, and leaves them. -/

namespace Sys2Proof.Machine

/-- The state with SRC_ADDR, LENGTH and the read-data lines set. -/
def State.withHostRegisters (s : State) (a l r : DWord) : State := { s with srcAddr := a, length := l, rdata := r }

/-- An outcome with its next state changed; a stop is left. -/
def mapNext (f : State → State) : Host.Outcome State Fault Refusal → Host.Outcome State Fault Refusal
  | .next t => .next (f t)
  | .fault g => .fault g
  | .refused g => .refused g

/-- A run of the stream is the same in two states that agree on each of its bytes. -/
theorem State.streamBytes_congr {s t : State} (h : ∀ i, t.streamByte i = s.streamByte i) :
    ∀ n i, t.streamBytes i n = s.streamBytes i n
  | 0, _ => rfl
  | n + 1, i => by simp only [State.streamBytes, h, State.streamBytes_congr h n]

theorem execPhaseLoad_withHostRegisters (s : State) (a l r : DWord) :
    execPhaseLoad (s.withHostRegisters a l r) = mapNext (·.withHostRegisters a l r) (execPhaseLoad s) := by
  have same : (s.withHostRegisters a l r).streamBytes (64 * (s.withHostRegisters a l r).blk) 64 =
      s.streamBytes (64 * s.blk) 64 := State.streamBytes_congr (fun _ => rfl) 64 _
  unfold execPhaseLoad
  rw [same]
  cases s.streamBytes (64 * s.blk) 64 <;> rfl

theorem State.nextRound_withHostRegisters (s : State) (a l r : DWord) :
    (s.withHostRegisters a l r).nextRound = s.nextRound.withHostRegisters a l r := by
  by_cases last : s.j = 63#6 <;> simp [State.nextRound, State.withHostRegisters, last]

/-- The operations of the engine, in formats PHASE and ROUND (R82, R86). -/
def IsEngineOp (i : Instr) : Prop :=
  i = .phaseIdle ∨ i = .phaseLoad ∨ i = .phaseRound ∨ i = .phaseAccum ∨ i = .phaseFinal ∨
    ∃ pos, i = .rndF pos ∨ i = .rndG pos ∨ i = .rndH pos ∨ i = .rndI pos

/-- Setting the host's registers commutes with every operation of the engine. -/
theorem exec_withHostRegisters {i : Instr} (hi : IsEngineOp i) (s : State) (a l r : DWord) :
    exec i (s.withHostRegisters a l r) = mapNext (·.withHostRegisters a l r) (exec i s) := by
  rcases hi with rfl | rfl | rfl | rfl | rfl | ⟨pos, rfl | rfl | rfl | rfl⟩
  case inr.inl => exact execPhaseLoad_withHostRegisters s a l r
  case inr.inr.inl => exact congrArg _ (State.nextRound_withHostRegisters (s.setW (roundAt s.j s.m s.w)) a l r)
  all_goals rfl

/-- Settles O20: an operation that commutes with setting the three has the same outcome, up to that setting. -/
theorem engineIgnoresHostRegisters : Obligations.EngineIgnoresHostRegisters := by
  intro s i a l r hi
  have same := exec_withHostRegisters hi s a l r
  exact ⟨fun t h => by rw [h] at same; exact same, fun f h => by rw [h] at same; exact same⟩

end Sys2Proof.Machine
end

