-- ==== Sys2Proof/Proofs/TurnOutcomes.lean ====
section
/-! PROOF. What a step comes to at each kind of turn (spec/20_memory.md R74): a host transaction, a change from outside,
and an input read in its window (R64). -/

namespace Sys2Proof.Machine

section Turns

variable {s : State} {rest : List Turn}

theorem step_of_host {word : BusWord} (ho : s.order = .host word :: rest) :
    step s = exec (decodeBus word) (s.turnsLeft rest) := by
  simp only [step, fetch, ho, fetchHost]

theorem step_of_read {i : Nat} (ho : s.order = .read i :: rest) : step s = earlyRead i (s.turnsLeft rest) := by
  simp only [step, fetch, ho]

theorem step_of_place {a : Nat} {v : Byte} (ho : s.order = .place a v :: rest) :
    step s = .next ((s.turnsLeft rest).place a v) := by
  simp only [step, fetch, ho]

theorem step_of_withdraw {a : Nat} (ho : s.order = .withdraw a :: rest) :
    step s = .next ((s.turnsLeft rest).withdraw a) := by
  simp only [step, fetch, ho]

theorem step_of_reset (ho : s.order = .reset :: rest) : step s = .next (s.turnsLeft rest).resetAction := by
  simp only [step, fetch, ho]

end Turns

/-- Settles O6: the operation runs in the state without its turn. -/
theorem stepRunsHostTransaction : Obligations.StepRunsHostTransaction := fun _ _ _ ho => step_of_host ho

/-- Settles O9: each of the three turns is one update of the state, whose own laws say what it changes. -/
theorem outsideTurns : Obligations.OutsideTurns := by
  intro s rest
  refine ⟨fun a v ho => ?_, fun a ho => ?_, fun ho => ?_⟩
  · exact ⟨_, step_of_place ho, State.memByte_place_same _ a v, fun b hb => State.memByte_place_other _ v hb, rfl⟩
  · exact ⟨_, step_of_withdraw ho, State.memByte_withdraw_same _ a, fun b hb => State.memByte_withdraw_other _ hb, rfl⟩
  · exact ⟨_, step_of_reset ho, rfl, rfl, rfl, rfl, rfl, rfl, rfl, rfl, rfl, rfl, rfl, fun _ => rfl⟩

/-! ### The window of an input read (R64) -/

/-- The LOAD of block n is still to come if n is a later block, or the current one in phase LOAD (R64). -/
theorem State.nextLoad_le_iff (s : State) (n : Nat) :
    s.nextLoad ≤ n ↔ s.blk < n ∨ (s.blk = n ∧ s.phase = 0b001#3) := by
  by_cases hp : s.phase = 0b001#3
  · simp [State.nextLoad, hp, Nat.le_iff_lt_or_eq]
  · simp [State.nextLoad, hp]

theorem earlyRead_of_not_due {s : State} {i : Nat} (due : s.readDue i = false) : earlyRead i s = .next s := by
  simp [earlyRead, due]

theorem earlyRead_of_readable {s : State} {i : Nat} {b : Byte} (due : s.readDue i = true)
    (hr : s.memRead (s.msgAddr i) = .ok b) : earlyRead i s = .next (s.take i b) := by
  simp [earlyRead, due, hr]

theorem earlyRead_of_unreadable {s : State} {i : Nat} (due : s.readDue i = true)
    (hr : ∀ b, s.memRead (s.msgAddr i) ≠ .ok b) : earlyRead i s = .fault (.inputUnreadable (s.msgAddr i)) := by
  rcases earlyRead_cases i s with ⟨notDue, -⟩ | ⟨b, -, hb, -⟩ | ⟨-, he⟩
  · simp [due] at notDue
  · exact absurd hb (hr b)
  · exact he

/-- A byte kept from an early read is the message byte, whatever input memory holds now (R64). -/
theorem State.msgByte_of_taken {s : State} {i : Nat} {b : Byte} (h : Memory.read s.taken i = some b) :
    s.msgByte i = .ok b := by
  simp only [State.msgByte, h]

/-- Settles O10: outside its window a read is not performed; inside it the byte is kept, or its address faults. -/
theorem earlyReadTurns : Obligations.EarlyReadTurns := by
  intro s i rest ho
  refine ⟨?_, fun due => ?_, fun due b hr => ?_, fun due hr => ?_⟩
  · rw [State.readDue_iff, State.nextLoad_le_iff]
  · exact (step_of_read ho).trans (earlyRead_of_not_due due)
  · have kept := Memory.read_write_same s.taken i b
    exact ⟨_, (step_of_read ho).trans (earlyRead_of_readable due hr), kept, fun _ => State.msgByte_of_taken kept,
      fun k hk => Memory.read_write_other s.taken b hk, rfl⟩
  · exact (step_of_read ho).trans (earlyRead_of_unreadable due hr)

end Sys2Proof.Machine
end

