-- ==== Sys2Proof/Proofs/LoadOutcomes.lean ====
section
/-! PROOF. When LOAD completes and when it is the fault INPUT_UNREADABLE (spec/20_memory.md R63, spec/60_exceptions.md
R256). -/

namespace Sys2Proof.Machine

/-- LOAD completes with the bytes of its block, or it is the fault of a message byte of the block that was not read
early and whose read is not admitted (R172, R256). -/
theorem execPhaseLoad_cases (s : State) :
    (∃ bytes, s.streamBytes (64 * s.blk) 64 = .ok bytes ∧ execPhaseLoad s = .next (s.loadBlock bytes)) ∨
    (∃ k, k < s.llen.toNat ∧ k / 64 = s.blk ∧ Memory.read s.taken k = none ∧ (∀ b, s.memRead (s.msgAddr k) ≠ .ok b) ∧
      execPhaseLoad s = .fault (.inputUnreadable (s.msgAddr k))) := by
  unfold execPhaseLoad
  cases hs : s.streamBytes (64 * s.blk) 64 with
  | ok bytes => exact .inl ⟨bytes, rfl, rfl⟩
  | error f =>
    obtain ⟨t, ht, he⟩ := State.streamBytes_error hs
    obtain ⟨hlt, untaken, hr, rfl⟩ := State.streamByte_error he
    exact .inr ⟨64 * s.blk + t, hlt, by omega, untaken, fun b hb => by simp [hr] at hb, rfl⟩

/-- A block that is read has each of its message bytes (R101). -/
theorem State.msgByte_of_streamBytes {s : State} {bytes : List Byte} (h : s.streamBytes (64 * s.blk) 64 = .ok bytes)
    {i : Nat} (hlt : i < s.llen.toNat) (hi : i / 64 = s.blk) : s.msgByte i = .ok (bytes.getD (i % 64) 0#8) := by
  obtain ⟨-, stream⟩ := State.streamBytes_ok h
  have at_i := stream (i % 64) (by omega)
  rw [show 64 * s.blk + i % 64 = i by omega] at at_i
  simpa [State.streamByte, hlt] using at_i

/-- Settles O41: a LOAD that completed would have the unreadable byte too. -/
theorem unreadableInputFaults : Obligations.UnreadableInputFaults := by
  refine ⟨fun s i hlt hi unreadable => ?_, fun s a b => State.memRead_eq_ok⟩
  rcases execPhaseLoad_cases s with ⟨bytes, hs, -⟩ | ⟨k, hk, hblk, -, hr, he⟩
  · exact absurd (State.msgByte_of_streamBytes hs hlt hi) (unreadable _)
  · exact ⟨k, hk, hblk, he, hr⟩

/-- Settles O42: a LOAD that faults has a message byte in its block. -/
theorem blockWithoutMessageLoads : Obligations.BlockWithoutMessageLoads := by
  intro s noMessage
  rcases execPhaseLoad_cases s with ⟨bytes, -, he⟩ | ⟨k, hk, hblk, -⟩
  · exact ⟨_, he⟩
  · omega

end Sys2Proof.Machine
end

