-- ==== Sys2Proof/Proofs/MemoryFrame.lean ====
section
/-! PROOF. No operation writes input memory (spec/20_memory.md R61), and a register read writes nothing but the
read-data lines (R71). -/

namespace Sys2Proof.Machine

/-- No operation changes the list that holds input memory. -/
theorem exec_mem {i : Instr} {s t : State} (h : exec i s = .next t) : t.mem = s.mem := by
  rcases exec_next h with rfl | ⟨d, v, -, rfl⟩ | ⟨v, -, rfl⟩ | ⟨v, -, rfl⟩ | ⟨-, rfl⟩ | ⟨-, rfl⟩ | ⟨-, -, -, -, rfl⟩ |
    ⟨-, -, -, rfl⟩ | ⟨-, rfl⟩ | ⟨-, q, rfl⟩ | ⟨-, bytes, -, rfl⟩ | ⟨-, rfl⟩ | ⟨-, rfl⟩ | ⟨-, rfl⟩
  all_goals simp

/-- Settles O49: every update that an operation makes leaves the list of bytes. -/
theorem inputMemoryNeverWritten : Obligations.InputMemoryNeverWritten := fun _ _ _ h a =>
  congrArg (Memory.read · a) (exec_mem h)

/-- A register read puts a value on the read-data lines, and that is all (R71, R81). -/
theorem exec_registerRead {i : Instr} {d : DWord} (hi : i ∈ registerReads d) (s : State) :
    ∃ v, exec i s = .next (s.answer v) := by
  simp only [registerReads, List.mem_cons, List.not_mem_nil, or_false] at hi
  rcases hi with rfl | rfl | rfl | rfl | rfl | rfl | rfl | rfl <;> exact ⟨_, rfl⟩

/-- Settles O15: the update of the read-data lines leaves every register and input memory. -/
theorem readsChangeNothing : Obligations.ReadsChangeNothing := by
  intro s t d i hi h
  obtain ⟨v, he⟩ := exec_registerRead hi s
  obtain rfl : s.answer v = t := by simpa [he] using h
  exact ⟨rfl, ⟨rfl, rfl, rfl, rfl⟩, ⟨rfl, rfl, rfl, rfl, rfl, rfl⟩, ⟨rfl, rfl, rfl⟩, fun _ => rfl⟩

end Sys2Proof.Machine
end

