-- ==== Sys2Proof/Proofs/Launch.lean ====
section
/-! PROOF. A DIGEST written while idle, and the launch that spec/20_memory.md R62 refuses. -/

namespace Sys2Proof.Machine

/-- Both forms of DIGEST are the one operation in an idle block (R211, R231). -/
theorem exec_digest_of_idle {s : State} (idle : s.status.busy = false) {i : Instr}
    (hi : i ∈ [Instr.digest, .wrCmd 0x0000000000000001#64]) : exec i s = s.digestIdle := by
  simp only [List.mem_cons, List.not_mem_nil, or_false] at hi
  rcases hi with rfl | rfl
  · simp [exec, execDigest, idle]
  · simp [exec, execWrCmd, idle]

theorem State.digestIdle_of_accepted {s : State}
    (accepted : s.params.strict = true → s.length.toNat ≤ lengthLimit s.params.lenMode) : s.digestIdle = s.launch := by
  rcases s.digestIdle_cases with ⟨⟨hs, hl⟩, -⟩ | ⟨-, he⟩
  · exact absurd (accepted hs) (by omega)
  · exact he

/-- The longest accepted message is one byte short of 2^61 in FULL64 and of 2^29 in LOW32 (R253). -/
theorem le_lengthLimit_iff (mode : LenMode) (n : Nat) :
    n ≤ lengthLimit mode ↔ (mode = .full64 → n < 2 ^ 61) ∧ (mode = .low32 → n < 2 ^ 29) := by
  cases mode <;> simp [lengthLimit] <;> omega

theorem State.launch_of_sideEffects {s : State} (h : s.sideEffects = true) :
    s.launch = .refused (.sideEffectInput s.srcAddr.toNat s.length.toNat) := by
  rcases s.launch_cases with ⟨free, -⟩ | ⟨-, he⟩
  · simp [h] at free
  · exact he

/-- A launch has side effects where a byte of its message lies in such a region (R62). -/
theorem State.sideEffects_iff {s : State} :
    s.sideEffects = true ↔ ∃ r ∈ s.devices, ∃ a, r.base ≤ a ∧ a < r.base + r.size ∧ s.srcAddr.toNat ≤ a ∧
      a < s.srcAddr.toNat + s.length.toNat := by
  simp only [State.sideEffects, List.any_eq_true, Region.meets_iff]

/-- Settles O26: the length is accepted, so the DIGEST is launched, and the launch is refused. -/
theorem sideEffectLaunchRefused : Obligations.SideEffectLaunchRefused := by
  intro s idle full low overlap i hi
  have accepted : s.params.strict = true → s.length.toNat ≤ lengthLimit s.params.lenMode := fun hs =>
    (le_lengthLimit_iff _ _).2 ⟨full hs, low hs⟩
  calc exec i s = s.digestIdle := exec_digest_of_idle idle hi
    _ = s.launch := State.digestIdle_of_accepted accepted
    _ = .refused (.sideEffectInput s.srcAddr.toNat s.length.toNat) :=
      State.launch_of_sideEffects (State.sideEffects_iff.2 overlap)

end Sys2Proof.Machine
end

