-- ==== Sys2Proof/Proofs/Encoding.lean ====
section
/-! PROOF. Decoding and encoding are inverse (spec/30_encoding.md R88): a value decodes to an operation
exactly when that operation is well formed and is encoded by the value. Which values decode to which operation (R82,
R84) then follows from the encoder. -/

namespace Sys2Proof.Machine

/-! ### Decoding what was encoded -/

/-- Settles O1: each row of the map gives back its operation. -/
theorem decodeOfEncodeIsIdentity : Obligations.DecodeOfEncodeIsIdentity := fun i =>
  match i with
  | .rdCmd d => Laws.RoundTrip.rdCmd d
  | .rdStatus d => Laws.RoundTrip.rdStatus d
  | .rdSrcAddr d => Laws.RoundTrip.rdSrcAddr d
  | .rdLength d => Laws.RoundTrip.rdLength d
  | .rdDigestLo d => Laws.RoundTrip.rdDigestLo d
  | .rdDigestHi d => Laws.RoundTrip.rdDigestHi d
  | .rdDigest64 d => Laws.RoundTrip.rdDigest64 d
  | .rdCaps d => Laws.RoundTrip.rdCaps d
  | .wrCmd d => Laws.RoundTrip.wrCmd d
  | .wrStatus d => Laws.RoundTrip.wrStatus d
  | .wrSrcAddr d => Laws.RoundTrip.wrSrcAddr d
  | .wrLength d => Laws.RoundTrip.wrLength d
  | .wrDigestLo d => Laws.RoundTrip.wrDigestLo d
  | .wrDigestHi d => Laws.RoundTrip.wrDigestHi d
  | .wrDigest64 d => Laws.RoundTrip.wrDigest64 d
  | .wrCaps d => Laws.RoundTrip.wrCaps d
  | .nop => Laws.RoundTrip.nop
  | .digest => Laws.RoundTrip.digest
  | .softReset => Laws.RoundTrip.softReset
  | .reservedCmd v => Laws.RoundTrip.reservedCmd v
  | .rndF pos => Laws.RoundTrip.rndF pos
  | .rndG pos => Laws.RoundTrip.rndG pos
  | .rndH pos => Laws.RoundTrip.rndH pos
  | .rndI pos => Laws.RoundTrip.rndI pos
  | .phaseIdle => Laws.RoundTrip.phaseIdle
  | .phaseLoad => Laws.RoundTrip.phaseLoad
  | .phaseRound => Laws.RoundTrip.phaseRound
  | .phaseAccum => Laws.RoundTrip.phaseAccum
  | .phaseFinal => Laws.RoundTrip.phaseFinal

/-! ### Encoding what was decoded, one format at a time -/

/-- Operation `i` is well formed and the value `e` encodes it. -/
def EncodedBy (i : Instr) (e : Encoded) : Prop := i.wf = true ∧ encode i = e

/-- A read or a write is of one of the eight registers (R88). -/
theorem index_cases : ∀ idx : BitVec 3,
    idx = 0#3 ∨ idx = 1#3 ∨ idx = 2#3 ∨ idx = 3#3 ∨ idx = 4#3 ∨ idx = 5#3 ∨ idx = 6#3 ∨ idx = 7#3 := by decide

/-- WE is 0 in the encoding of a read (R81). -/
theorem decodeRead_encodedBy (idx : BitVec 3) (data : DWord) :
    EncodedBy (decodeRead idx data) (.bus (busWord (BitVec.ofBool false ++ idx) data)) := by
  rcases index_cases idx with rfl | rfl | rfl | rfl | rfl | rfl | rfl | rfl <;>
    exact ⟨rfl, congrArg (fun c => Encoded.bus (busWord c data)) (by decide)⟩

/-- WE is 1 in the encoding of a write (R81). -/
theorem decodeWrite_encodedBy (idx : BitVec 3) (data : DWord) :
    EncodedBy (decodeWrite idx data) (.bus (busWord (BitVec.ofBool true ++ idx) data)) := by
  rcases index_cases idx with rfl | rfl | rfl | rfl | rfl | rfl | rfl | rfl <;>
    exact ⟨rfl, congrArg (fun c => Encoded.bus (busWord c data)) (by decide)⟩

/-- The control bits are WE and IDX (R81). -/
theorem control_eta : ∀ c : BitVec 4, BitVec.ofBool (c.getLsbD 3) ++ c.extractLsb' 0 3 = c := by decide

theorem decodeBus_encodedBy (word : BusWord) : EncodedBy (decodeBus word) (.bus word) := by
  obtain ⟨c, d, rfl⟩ : ∃ c d, busWord c d = word := ⟨_, _, busWord_eta word⟩
  have control := control_eta c
  rw [decodeBus_busWord]
  cases we : c.getLsbD 3 with
  | false =>
    have read := decodeRead_encodedBy (c.extractLsb' 0 3) d
    rwa [← we, control] at read
  | true =>
    have write := decodeWrite_encodedBy (c.extractLsb' 0 3) d
    rwa [← we, control] at write

/-- A value that is none of the three commands is a reserved one, and keeps its bits (R84, R85). -/
theorem decodeCmd_encodedBy (v : DWord) : EncodedBy (decodeCmd v) (.cmd v) := by
  by_cases h0 : v = 0#64
  · subst h0; exact ⟨rfl, rfl⟩
  by_cases h1 : v = 1#64
  · subst h1; exact ⟨rfl, rfl⟩
  by_cases h2 : v = 2#64
  · subst h2; exact ⟨rfl, rfl⟩
  have reserved := (reservedValue_iff v).2 ⟨h0, h1, h2⟩
  rw [decodeCmd_reserved reserved]
  exact ⟨reserved, rfl⟩

theorem decodeRound_encodedBy (j : BitVec 6) : EncodedBy (decodeRound j) (.round j) := by
  unfold EncodedBy
  revert j
  decide

theorem decodePhase_encodedBy {p : BitVec 3} {i : Instr} (h : decodePhase p = .ok i) : EncodedBy i (.phase p) := by
  refine ⟨?_, encode_of_decodePhase h⟩
  rcases decodePhase_ok h with ⟨-, rfl⟩ | ⟨-, rfl⟩ | ⟨-, rfl⟩ | ⟨-, rfl⟩ | ⟨-, rfl⟩ <;> rfl

/-- Settles O2, by the four formats. -/
theorem encodeOfDecodeIsIdentity : Obligations.EncodeOfDecodeIsIdentity := by
  intro e i h
  cases e with
  | bus word => cases h; exact decodeBus_encodedBy word
  | cmd v => cases h; exact decodeCmd_encodedBy v
  | round j => cases h; exact decodeRound_encodedBy j
  | phase p => exact decodePhase_encodedBy h

/-! ### Which values decode to an operation -/

theorem decode_eq_ok_iff {e : Encoded} {i : Instr} : decode e = .ok i ↔ EncodedBy i e := by
  refine ⟨encodeOfDecodeIsIdentity e i, fun ⟨wf, he⟩ => ?_⟩
  rw [← he]
  exact decodeOfEncodeIsIdentity i wf

theorem decodeBus_eq_iff {word : BusWord} {i : Instr} : decodeBus word = i ↔ EncodedBy i (.bus word) := by
  rw [← decode_eq_ok_iff, decode, Except.ok.injEq]

theorem decodeCmd_eq_iff {v : DWord} {i : Instr} : decodeCmd v = i ↔ EncodedBy i (.cmd v) := by
  rw [← decode_eq_ok_iff, decode, Except.ok.injEq]

theorem decodeRound_eq_iff {j : BitVec 6} {i : Instr} : decodeRound j = i ↔ EncodedBy i (.round j) := by
  rw [← decode_eq_ok_iff, decode, Except.ok.injEq]

/-- Settles O3: each word is the encoding of its operation, but PHASE 101, which has none. -/
theorem writtenWordsDecode : Obligations.WrittenWordsDecode := by
  unfold Obligations.WrittenWordsDecode
  simp only [decode_eq_ok_iff, EncodedBy]
  decide

/-- The reserved values by their two fields, the low byte from 0x03 to 0xFF (R85). -/
theorem reservedValue_iff_fields (v : DWord) :
    reservedValue v = true ↔ v.toNat / 2 ^ 8 ≠ 0 ∨ (0x03 ≤ v.toNat % 2 ^ 8 ∧ v.toNat % 2 ^ 8 ≤ 0xFF) := by
  simp only [reservedValue_iff, ne_eq, ← BitVec.toNat_inj, BitVec.toNat_ofNat]
  omega

/-- An operation with one CMD value is encoded by that value alone (R84). -/
theorem encodedBy_cmd_iff {i : Instr} {u v : DWord} (wf : i.wf = true) (he : encode i = .cmd u) :
    EncodedBy i (.cmd v) ↔ v = u := by
  rw [EncodedBy, he, Encoded.cmd.injEq, eq_comm (a := u)]
  exact and_iff_right wf

/-- Settles O4: each command has one value, and any value encodes RESERVED_CMD where that is well formed. -/
theorem commandValuesDecode : Obligations.CommandValuesDecode := fun v =>
  ⟨decodeCmd_eq_iff.trans (encodedBy_cmd_iff rfl rfl), decodeCmd_eq_iff.trans (encodedBy_cmd_iff rfl rfl),
    decodeCmd_eq_iff.trans (encodedBy_cmd_iff rfl rfl),
    decodeCmd_eq_iff.trans ((and_iff_left rfl).trans (reservedValue_iff_fields v))⟩

/-- SEL counts the groups of 16 rounds (R82). -/
theorem roundIndex_toNat : ∀ (sel : BitVec 2) (pos : BitVec 4),
    (roundIndex sel pos).toNat = 16 * sel.toNat + pos.toNat := by decide

/-- A round of group SEL is the index of SEL and its place in the group (R82). -/
theorem roundIndex_of_group (sel : BitVec 2) {j : BitVec 6} (lo : 16 * sel.toNat ≤ j.toNat)
    (hi : j.toNat < 16 * sel.toNat + 16) : roundIndex sel (BitVec.ofNat 4 (j.toNat - 16 * sel.toNat)) = j := by
  apply BitVec.eq_of_toNat_eq
  rw [roundIndex_toNat, BitVec.toNat_ofNat]
  omega

/-- Settles O5: in each range j is the round index that encodes the operation. -/
theorem roundRangesDecode : Obligations.RoundRangesDecode := by
  intro j
  simp only [decodeRound_eq_iff]
  refine ⟨fun hi => ⟨rfl, ?_⟩, fun lo hi => ⟨rfl, ?_⟩, fun lo hi => ⟨rfl, ?_⟩, fun lo => ⟨rfl, ?_⟩⟩
  · exact congrArg _ (roundIndex_of_group 0b00#2 (Nat.zero_le _) hi)
  · exact congrArg _ (roundIndex_of_group 0b01#2 lo hi)
  · exact congrArg _ (roundIndex_of_group 0b10#2 lo hi)
  · exact congrArg _ (roundIndex_of_group 0b11#2 lo j.isLt)

end Sys2Proof.Machine
end

