-- ==== Sys2Proof/Proofs/EngineTurn.lean ====
section
/-! PROOF. The engine's turn, and the fault of a PHASE outside the five (spec/30_encoding.md R86). -/

namespace Sys2Proof.Machine

theorem fetch_of_no_turn {s : State} (ho : s.order = []) : fetch s = fetchEngine s := by
  simp only [fetch, ho]

theorem fetch_of_engine {s : State} {rest : List Turn} (ho : s.order = .engine :: rest) :
    fetch s = fetchEngine (s.turnsLeft rest) := by
  simp only [fetch, ho]

theorem step_of_fetch_done {s : State} {o : Host.Outcome State Fault Refusal} (h : fetch s = .done o) : step s = o := by
  simp only [step, h]

/-- The five phases are 0 to 4 (R86). -/
theorem toNat_le_four_of_decodePhase {p : BitVec 3} {i : Instr} (h : decodePhase p = .ok i) : p.toNat ≤ 4 := by
  rcases decodePhase_ok h with ⟨rfl, -⟩ | ⟨rfl, -⟩ | ⟨rfl, -⟩ | ⟨rfl, -⟩ | ⟨rfl, -⟩ <;> decide

theorem fetchEngine_of_illegal {s : State} (h : 5 ≤ s.phase.toNat) :
    fetchEngine s = .done (.fault (.illegalPhase s.phase)) := by
  rcases fetchEngine_cases s with ⟨i, hi, -⟩ | he
  · have := toNat_le_four_of_decodePhase hi
    omega
  · exact he

/-- Settles O8: with a turn or without one, the engine's operation is that of a PHASE which decodes to none. -/
theorem illegalPhaseFaults : Obligations.IllegalPhaseFaults := by
  rintro s h (ho | ⟨rest, ho⟩)
  · exact step_of_fetch_done ((fetch_of_no_turn ho).trans (fetchEngine_of_illegal h))
  · exact step_of_fetch_done ((fetch_of_engine ho).trans (fetchEngine_of_illegal (s := s.turnsLeft rest) h))

end Sys2Proof.Machine
end

