-- ==== Sys2Proof/Proofs/Hash.lean ====
section
/-! PROOF. START begins the digest of the message that input memory holds (spec/43_sequencer.md R171, R180), and the
three transactions of HASH lead to it (spec/30_encoding.md R90). -/

namespace Sys2Proof.Machine

/-- START latches the length of the message, with H the chaining value of no block and no byte read yet. -/
theorem State.start_digesting {s : State} {msg : List Byte} (len : s.length.toNat = msg.length)
    (held : s.holdsMessage s.srcAddr.toNat msg) : s.start.Digesting msg where
  busy := rfl
  length := len
  count := congrArg blockCount len
  bytes i hi _ := (State.memRead_congr (s := s) rfl rfl _).trans (held i hi)
  stage := .inl ⟨rfl, by simp [blockCount], rfl⟩

/-- A DIGEST written while idle starts where its length is accepted and its input has no side effects (R62, R231). -/
theorem exec_digest_starts {s : State} (idle : s.status.busy = false)
    (accepted : s.params.strict = true → s.length.toNat ≤ lengthLimit s.params.lenMode)
    (free : s.sideEffectFree s.srcAddr.toNat s.length.toNat) {i : Instr}
    (hi : i ∈ [Instr.digest, .wrCmd 0x0000000000000001#64]) : exec i s = .next s.start := by
  rw [exec_digest_of_idle idle hi, State.digestIdle_of_accepted accepted, State.launch,
    State.sideEffects_eq_false.2 free]
  rfl

/-- A run goes on from the state that the operation of a host transaction leaves (R81, R210). -/
theorem core_run_host {s t : State} {word : BusWord} {rest : List Turn} {i : Instr}
    (ho : s.order = .host word :: rest) (hi : EncodedBy i (.bus word)) (he : exec i (s.turnsLeft rest) = .next t)
    {k : Nat} : Sys2Proof.core.run (k + 1) s = Sys2Proof.core.run k t := by
  refine core_run_succ ?_ k
  rw [step_of_host ho, decodeBus_eq_iff.2 hi, he]

/-- The block when HASH has written the address and the length, and its last transaction is to come (R90). -/
def State.hashArmed (s : State) (a l : DWord) (rest : List Turn) : State :=
  ((s.turnsLeft (.host digestTransaction :: rest)).setSrcAddr a).setLength l

/-- The three transactions of HASH write the address and the length, then START (R90, R231). -/
theorem core_run_hash {s : State} {a l : DWord} {rest : List Turn} (idle : s.status.busy = false)
    (nonStrict : s.params.strict = false) (free : s.sideEffectFree a.toNat l.toNat)
    (ho : s.order = (hashTransactions a l).map Turn.host ++ rest) :
    Sys2Proof.core.run 3 s = .next ((s.hashArmed a l rest).turnsLeft rest).start := by
  have starts : exec (.wrCmd 1#64) ((s.hashArmed a l rest).turnsLeft rest) =
      .next ((s.hashArmed a l rest).turnsLeft rest).start :=
    exec_digest_starts (s := (s.hashArmed a l rest).turnsLeft rest) idle
      (fun strict => Bool.noConfusion (nonStrict.symm.trans strict)) free (.tail _ (.head _))
  calc Sys2Proof.core.run 3 s
    _ = Sys2Proof.core.run 2 ((s.turnsLeft _).setSrcAddr a) := core_run_host (i := .wrSrcAddr a) ho ⟨rfl, rfl⟩ rfl
    _ = Sys2Proof.core.run 1 (s.hashArmed a l rest) := core_run_host (i := .wrLength l) rfl ⟨rfl, rfl⟩ rfl
    _ = Sys2Proof.core.run 0 ((s.hashArmed a l rest).turnsLeft rest).start := core_run_host rfl ⟨rfl, rfl⟩ starts

/-- Settles O57: the three transactions leave the message where it was, and START latches its place and length. -/
theorem hashBeginsDigest : Obligations.HashBeginsDigest := by
  intro s msg a l rest idle len held nonStrict free ho
  have digesting : ((s.hashArmed a l rest).turnsLeft rest).start.Digesting msg := State.start_digesting len held
  exact ⟨_, core_run_hash idle nonStrict free ho, digesting, rfl, rfl, rfl⟩

end Sys2Proof.Machine
end

