-- ==== Sys2Proof/Proofs/Padding.lean ====
section
/-! PROOF. The padded stream (spec/40_padding.md): its length and its blocks (R100, R108), its bytes (R101 to R106),
and the lengths for which the two length-field modes give one digest (R106). -/

namespace Sys2Proof.Machine

/-! ### The padded length -/

theorem blockCount_mul (len : Nat) : blockCount len * 64 = paddedLen len := by
  simp only [blockCount, paddedLen]
  omega

/-- The terminator and the length field come after the message, and at most 63 zero bytes between them (R100). -/
theorem paddedLen_bounds (len : Nat) : len + 9 ≤ paddedLen len ∧ paddedLen len ≤ len + 72 := by
  simp only [paddedLen]
  omega

/-- The terminator's block is the last one where the length field still fits after it (R108). -/
theorem blockCount_eq (len : Nat) : blockCount len = len / 64 + if len % 64 ≤ 55 then 1 else 2 := by
  simp only [blockCount]
  split <;> omega

/-- Settles O38: the padded length is NBLK blocks, and NBLK counts from the terminator's block. -/
theorem paddedLengthLaws : Obligations.PaddedLengthLaws := by
  intro len
  have blocks := blockCount_mul len
  have bounds := paddedLen_bounds len
  have last := blockCount_eq len
  refine ⟨by omega, bounds.1, by omega, blocks, by omega, fun fits => ?_, fun spills => ?_⟩
  · rw [last, if_pos fits]
  · rw [last, if_neg (by omega)]

/-! ### The bytes of the stream -/

/-- The length field wraps at 2^64 in FULL64 (R105). -/
theorem lenFieldValue_full64_toNat (len : Nat) : (lenFieldValue .full64 len).toNat = 8 * len % 2 ^ 64 := by
  simp [lenFieldValue]

/-- The length field wraps at 2^32 in LOW32, and its upper half is 0 (R106). -/
theorem lenFieldValue_low32_toNat (len : Nat) : (lenFieldValue .low32 len).toNat = 8 * len % 2 ^ 32 := by
  simp only [lenFieldValue, BitVec.toNat_setWidth, BitVec.toNat_ofNat]
  omega

theorem padByte_terminator (mode : LenMode) (len : Nat) : padByte mode len len = 0x80#8 := if_pos rfl

theorem padByte_zero (mode : LenMode) {len i : Nat} (lo : len + 1 ≤ i) (hi : i < paddedLen len - 8) :
    padByte mode len i = 0x00#8 := by
  rw [padByte, if_neg (by omega), if_pos hi]

/-- The last 8 bytes are the digits of the length field, past the terminator for every length (R104, R105). -/
theorem padByte_lenField (mode : LenMode) {len i : Nat} (lo : paddedLen len - 8 ≤ i) :
    padByte mode len i = BitVec.ofNat 8 ((lenFieldValue mode len).toNat / 256 ^ (i - (paddedLen len - 8))) := by
  have room := paddedLen_bounds len
  rw [padByte, if_neg (by omega), if_neg (by omega), leByte_eq_digit]

theorem State.streamByte_message {s : State} {i : Nat} (h : i < s.llen.toNat) : s.streamByte i = s.msgByte i :=
  if_pos h

theorem State.streamByte_padding {s : State} {i : Nat} (h : s.llen.toNat ≤ i) :
    s.streamByte i = .ok (padByte s.params.lenMode s.llen.toNat i) := if_neg (by omega)

/-- The length field of the stream of a digest (R101, R105, R106). -/
theorem State.streamByte_lenField {s : State} {i : Nat} (lo : paddedLen s.llen.toNat - 8 ≤ i) :
    s.streamByte i = .ok (BitVec.ofNat 8
      ((lenFieldValue s.params.lenMode s.llen.toNat).toNat / 256 ^ (i - (paddedLen s.llen.toNat - 8)))) := by
  have room := paddedLen_bounds s.llen.toNat
  rw [State.streamByte_padding (by omega), padByte_lenField _ lo]

/-- Settles O37, by the four ranges of the stream, the length field once for each mode. -/
theorem paddedStreamBytes : Obligations.PaddedStreamBytes := by
  intro s i
  refine ⟨State.streamByte_message, fun at_end => ?_, fun lo hi => ?_, fun lo _ full => ?_, fun lo _ low => ?_⟩
  · subst at_end
    rw [State.streamByte_padding (Nat.le_refl _), padByte_terminator]
  · rw [State.streamByte_padding (by omega), padByte_zero _ lo hi]
  · rw [State.streamByte_lenField lo, full, lenFieldValue_full64_toNat]
  · rw [State.streamByte_lenField lo, low, lenFieldValue_low32_toNat]

/-! ### The two length-field modes -/

/-- Below 2^29 bytes the bit count fits in 32 bits, so neither mode wraps (R106). -/
theorem lenFieldValue_full64_eq_low32 {len : Nat} (short : len < 2 ^ 29) :
    lenFieldValue .full64 len = lenFieldValue .low32 len := by
  apply BitVec.eq_of_toNat_eq
  rw [lenFieldValue_full64_toNat, lenFieldValue_low32_toNat]
  omega

section SameLengthField
variable {mode mode' : LenMode} {msg : List Byte}
  (field : lenFieldValue mode msg.length = lenFieldValue mode' msg.length)
include field

/-- The mode reaches the stream through the length field alone (R101, R106). -/
theorem paddedBlock_congr_mode (b : Nat) : paddedBlock mode msg b = paddedBlock mode' msg b := by
  simp only [paddedBlock, paddedByte, padByte, field]

theorem chain_congr_mode (n : Nat) : chain mode msg n = chain mode' msg n := by
  induction n with
  | zero => rfl
  | succ n ih => simp only [chain, ih, paddedBlock_congr_mode field]

theorem md5core_congr_mode : md5core mode msg = md5core mode' msg := chain_congr_mode field _

end SameLengthField

/-- Settles O60: both modes have one length field, so one stream and one MD5CORE. -/
theorem modesAgreeBelowLimit : Obligations.ModesAgreeBelowLimit := by
  intro msg short
  have same := md5core_congr_mode (lenFieldValue_full64_eq_low32 short)
  exact ⟨congrArg packLo same, congrArg packHi same⟩

end Sys2Proof.Machine
end

