-- ==== Sys2Proof/Proofs/Rounds.lean ====
section
/-! PROOF. The round operations (spec/42_rounds.md): the accumulators each one leaves (R150 to R154), what it does not
write (R44, R150), and the message words a group of rounds uses (R135). -/

namespace Sys2Proof.Machine

/-! ### What a round operation does -/

theorem exec_rndF (s : State) (pos : BitVec 4) :
    exec (.rndF pos) s = .next (s.setW (roundF (roundIndex 0b00#2 pos) s.m s.w)) := rfl

theorem exec_rndG (s : State) (pos : BitVec 4) :
    exec (.rndG pos) s = .next (s.setW (roundG (roundIndex 0b01#2 pos) s.m s.w)) := rfl

theorem exec_rndH (s : State) (pos : BitVec 4) :
    exec (.rndH pos) s = .next (s.setW (roundH (roundIndex 0b10#2 pos) s.m s.w)) := rfl

theorem exec_rndI (s : State) (pos : BitVec 4) :
    exec (.rndI pos) s = .next (s.setW (roundI (roundIndex 0b11#2 pos) s.m s.w)) := rfl

/-- Whatever its group and position, a round operation only writes the accumulators (R150). -/
theorem exec_roundOperation {i : Instr} {pos : BitVec 4} (hi : i ∈ [.rndF pos, .rndG pos, .rndH pos, .rndI pos])
    (s : State) : ∃ q, exec i s = .next (s.setW q) := by
  simp only [List.mem_cons, List.not_mem_nil, or_false] at hi
  rcases hi with rfl | rfl | rfl | rfl
  · exact ⟨_, exec_rndF s pos⟩
  · exact ⟨_, exec_rndG s pos⟩
  · exact ⟨_, exec_rndH s pos⟩
  · exact ⟨_, exec_rndI s pos⟩

/-- Settles O33: writing the accumulators leaves every other register and input memory. -/
theorem roundOperationsChangeOnlyW : Obligations.RoundOperationsChangeOnlyW := by
  intro s t pos i hi h
  obtain ⟨q, he⟩ := exec_roundOperation hi s
  obtain rfl : s.setW q = t := by simpa [he] using h
  exact ⟨rfl, ⟨rfl, rfl, rfl, rfl⟩, ⟨rfl, rfl, rfl, rfl, rfl, rfl⟩, rfl, rfl, fun _ => rfl⟩

/-! ### The message-word index -/

theorem indexG_toNat (j : BitVec 6) : (indexG j).toNat = (5 * j.toNat + 1) % 16 := BitVec.toNat_ofNat ..

theorem indexH_toNat (j : BitVec 6) : (indexH j).toNat = (3 * j.toNat + 5) % 16 := BitVec.toNat_ofNat ..

theorem indexI_toNat (j : BitVec 6) : (indexI j).toNat = (7 * j.toNat) % 16 := BitVec.toNat_ofNat ..

/-- The first group takes the words in order (R135). -/
theorem indexF_roundIndex : ∀ pos : BitVec 4, indexF (roundIndex 0b00#2 pos) = pos := by decide

/-- 13 is the inverse of 5 modulo 16. -/
theorem indexG_roundIndex_inverse : ∀ k : BitVec 4, indexG (roundIndex 0b01#2 (13#4 * (k - 1#4))) = k := by decide

/-- 11 is the inverse of 3 modulo 16. -/
theorem indexH_roundIndex_inverse : ∀ k : BitVec 4, indexH (roundIndex 0b10#2 (11#4 * (k - 5#4))) = k := by decide

/-- 7 is its own inverse modulo 16. -/
theorem indexI_roundIndex_inverse : ∀ k : BitVec 4, indexI (roundIndex 0b11#2 (7#4 * k)) = k := by decide

/-- Settles O35: the position multiplies by an odd number in each index, so it can be solved for. -/
theorem everyWordUsedInEachGroup : Obligations.EveryWordUsedInEachGroup := fun k =>
  ⟨⟨_, indexF_roundIndex k⟩, ⟨_, indexG_roundIndex_inverse k⟩, ⟨_, indexH_roundIndex_inverse k⟩,
    ⟨_, indexI_roundIndex_inverse k⟩⟩

/-! ### The accumulators -/

/-- An operation that writes ROUNDSTEP of round n with message word M[k] leaves these four accumulators (R150). -/
theorem roundStep_completes {i : Instr} {s : State} {f : Word} {g : BitVec 4} {j : BitVec 6} {n k : Nat}
    (he : exec i s = .next (s.setW (roundQuad f (blockWord s.m g) j s.w))) (round : j.toNat = n) (word : g.toNat = k)
    (hk : k < 16) :
    ∃ t, exec i s = .next t ∧ t.w.a = s.w.d ∧ t.w.c = s.w.b ∧ t.w.d = s.w.c ∧
      t.w.b = s.w.b + rotl32 (f + s.w.a + kRom (BitVec.ofNat 6 n) + s.m[k]) (rRom (BitVec.ofNat 6 n)) := by
  subst round word
  refine ⟨_, he, rfl, rfl, rfl, ?_⟩
  rw [BitVec.ofNat_toNat, BitVec.setWidth_eq]
  rfl

/-- Settles O29: round p, with the message word at the position itself (R135). -/
theorem rndFCompletes : Obligations.RndFCompletes := by
  intro s pos
  have round : (roundIndex 0b00#2 pos).toNat = pos.toNat := (roundIndex_toNat _ pos).trans (Nat.zero_add _)
  have word : (indexF (roundIndex 0b00#2 pos)).toNat = pos.toNat := congrArg _ (indexF_roundIndex pos)
  exact roundStep_completes (exec_rndF s pos) round word _

/-- Settles O30: round 16 + p, with message word (5j + 1) mod 16 (R135). -/
theorem rndGCompletes : Obligations.RndGCompletes := by
  intro s pos
  have round : (roundIndex 0b01#2 pos).toNat = 16 + pos.toNat := roundIndex_toNat _ pos
  exact roundStep_completes (exec_rndG s pos) round (by rw [indexG_toNat, round]) _

/-- Settles O31: round 32 + p, with message word (3j + 5) mod 16 (R135). -/
theorem rndHCompletes : Obligations.RndHCompletes := by
  intro s pos
  have round : (roundIndex 0b10#2 pos).toNat = 32 + pos.toNat := roundIndex_toNat _ pos
  exact roundStep_completes (exec_rndH s pos) round (by rw [indexH_toNat, round]) _

/-- Settles O32: round 48 + p, with message word 7j mod 16 (R135). -/
theorem rndICompletes : Obligations.RndICompletes := by
  intro s pos
  have round : (roundIndex 0b11#2 pos).toNat = 48 + pos.toNat := roundIndex_toNat _ pos
  exact roundStep_completes (exec_rndI s pos) round (by rw [indexI_toNat, round]) _

end Sys2Proof.Machine
end

