-- ==== Sys2Proof/Proofs/SequencerSteps.lean ====
section
/-! PROOF. START and the steps of the sequencer (spec/43_sequencer.md R170 to R176): which operation a turn of the engine
runs, when it completes, what it writes and what it leaves. -/

namespace Sys2Proof.Machine

/-! ### The engine's turn (R170) -/

theorem fetchEngine_of_decodes {s : State} {i : Instr} (h : decodePhase s.phase = .ok i) : fetchEngine s = .run i s := by
  simp only [fetchEngine, h]

theorem step_of_fetch_run {s t : State} {i : Instr} (h : fetch s = .run i t) : step s = exec i t := by
  simp only [step, h]

theorem step_of_no_turn {s : State} {i : Instr} (ho : s.order = []) (h : decodePhase s.phase = .ok i) :
    step s = exec i s :=
  step_of_fetch_run ((fetch_of_no_turn ho).trans (fetchEngine_of_decodes h))

theorem step_of_engine {s : State} {rest : List Turn} {i : Instr} (ho : s.order = .engine :: rest)
    (h : decodePhase s.phase = .ok i) : step s = exec i (s.turnsLeft rest) :=
  step_of_fetch_run ((fetch_of_engine ho).trans (fetchEngine_of_decodes (s := s.turnsLeft rest) h))

/-- Settles O7: with a turn or without one, the engine fetches the operation of its PHASE. -/
theorem stepRunsPhaseOperation : Obligations.StepRunsPhaseOperation := fun _ _ h =>
  ⟨fun ho => step_of_no_turn ho h, fun _ ho => step_of_engine ho h⟩

/-- Settles O36: the step of IDLE is to wait. -/
theorem idleStepCompletes : Obligations.IdleStepCompletes := fun _ => rfl

/-! ### START (R171) -/

/-- Settles O25: the DIGEST is a START, whose own laws say what it writes. -/
theorem acceptedDigestStarts : Obligations.AcceptedDigestStarts := by
  intro s idle full low free i hi
  have accepted : s.params.strict = true → s.length.toNat ≤ lengthLimit s.params.lenMode := fun hs =>
    (le_lengthLimit_iff _ _).2 ⟨full hs, low hs⟩
  exact ⟨s.start, exec_digest_starts idle accepted free hi, rfl, rfl, rfl, rfl, rfl, rfl, rfl, ⟨rfl, rfl, rfl, rfl⟩, rfl,
    rfl, rfl, fun _ => rfl⟩

/-- Settles O56: the DIGEST is a START, and START begins the digest. -/
theorem startBeginsDigest : Obligations.StartBeginsDigest := by
  intro s msg idle len held accepted free
  exact ⟨s.start, exec_digest_starts idle accepted free (.head _), State.start_digesting len held, rfl, rfl⟩

/-! ### LOAD (R172) -/

theorem exec_phaseLoad (s : State) : exec .phaseLoad s = execPhaseLoad s := rfl

/-- A message byte that was not read early is read from its address (R64). -/
theorem State.msgByte_of_untaken {s : State} {i : Nat} (h : Memory.read s.taken i = none) :
    s.msgByte i = s.memRead (s.msgAddr i) := by
  simp only [State.msgByte, h]

/-- LOAD completes with the bytes of its block where each of its message bytes can be had (R172). -/
theorem execPhaseLoad_of_readable {s : State} (had : ∀ i, i < s.llen.toNat → i / 64 = s.blk → ∃ b, s.msgByte i = .ok b) :
    ∃ bytes, s.streamBytes (64 * s.blk) 64 = .ok bytes ∧ execPhaseLoad s = .next (s.loadBlock bytes) := by
  rcases execPhaseLoad_cases s with loads | ⟨k, hk, hblk, untaken, unreadable, -⟩
  · exact loads
  · obtain ⟨b, hb⟩ := had k hk hblk
    rw [State.msgByte_of_untaken untaken] at hb
    exact absurd hb (unreadable b)

/-- Settles O39: UNPACK puts each byte of the stream into its place in M. -/
theorem loadCompletes : Obligations.LoadCompletes := by
  intro s had
  obtain ⟨bytes, hs, he⟩ := execPhaseLoad_of_readable had
  obtain ⟨-, stream⟩ := State.streamBytes_ok hs
  refine ⟨s.loadBlock bytes, he, rfl, rfl, rfl, fun n hn => ?_⟩
  rw [stream n hn]
  exact congrArg Except.ok (unpack_byte bytes n hn).symm

/-- A message byte depends on what was read early of it, and on the read of its address (R64). -/
theorem State.msgByte_congr_reads {s t : State} {i : Nat} (taken : Memory.read t.taken i = Memory.read s.taken i)
    (lsrc : t.lsrc = s.lsrc) (read : t.memRead (s.msgAddr i) = s.memRead (s.msgAddr i)) : t.msgByte i = s.msgByte i := by
  have addr : t.msgAddr i = s.msgAddr i := congrArg (·.toNat + i) lsrc
  unfold State.msgByte
  rw [taken, addr, read]

/-- LOAD drops no byte of a later block that was read early, so that byte keeps its value (R64). -/
theorem State.msgByte_loadBlock {s : State} (bytes : List Byte) {i : Nat} (later : s.blk < i / 64) :
    (s.loadBlock bytes).msgByte i = s.msgByte i := by
  have kept : Memory.read (s.loadBlock bytes).taken i = Memory.read s.taken i := by
    rw [State.loadBlock_taken, Memory.read_keepFrom, if_pos (by omega)]
  exact State.msgByte_congr_reads kept rfl rfl

/-- Settles O40: a LOAD that completes writes M, W, j and PHASE, and uses up the bytes of its block. -/
theorem loadChangesNothingElse : Obligations.LoadChangesNothingElse := by
  intro s t h
  obtain ⟨bytes, -, rfl⟩ := execPhaseLoad_next h
  exact ⟨rfl, ⟨rfl, rfl, rfl, rfl⟩, rfl, rfl, rfl, rfl, rfl, fun _ => rfl, fun _ => State.msgByte_loadBlock bytes⟩

/-! ### ROUND (R173) -/

/-- The round operation that j decodes to writes ROUNDSTEP(j) (R82, R150). -/
theorem exec_decodeRound (j : BitVec 6) (s : State) : exec (decodeRound j) s = .next (s.setW (roundAt j s.m s.w)) := by
  obtain ⟨sel, pos, rfl⟩ : ∃ sel pos, roundIndex sel pos = j := ⟨_, _, roundIndex_eta j⟩
  have groups : ∀ sel : BitVec 2, sel = 0b00#2 ∨ sel = 0b01#2 ∨ sel = 0b10#2 ∨ sel = 0b11#2 := by decide
  simp only [decodeRound, roundAt, roundSel_roundIndex, roundPos_roundIndex]
  rcases groups sel with rfl | rfl | rfl | rfl
  · exact exec_rndF s pos
  · exact exec_rndG s pos
  · exact exec_rndH s pos
  · exact exec_rndI s pos

theorem exec_phaseRound (s : State) : exec .phaseRound s = .next (s.setW (roundAt s.j s.m s.w)).nextRound := rfl

/-- Before round 63 the count does not wrap (R24). -/
theorem toNat_add_one_of_lt {j : BitVec 6} (h : j.toNat < 63) : (j + 1#6).toNat = j.toNat + 1 := by
  rw [BitVec.toNat_add, BitVec.toNat_ofNat]
  omega

/-- Settles O43: W is written as by the round operation, then j counts to 63. -/
theorem roundStepCompletes : Obligations.RoundStepCompletes := by
  intro s
  refine ⟨_, _, exec_phaseRound s, exec_decodeRound s.j s, by simp, fun at63 => ?_, fun below => ?_,
    by simp [State.memByte]⟩
  · have last : s.j = 63#6 := BitVec.eq_of_toNat_eq at63
    simp [last]
  · have more : s.j ≠ 63#6 := fun last => by simp [last] at below
    simp [more, toNat_add_one_of_lt below, -BitVec.toNat_add]

/-! ### ACCUM and FINAL (R174, R176) -/

theorem exec_phaseAccum (s : State) : exec .phaseAccum s = .next s.accum := rfl

/-- Settles O44: the sums wrap as words do, and the old blk is compared. -/
theorem accumCompletes : Obligations.AccumCompletes := fun s =>
  ⟨s.accum, exec_phaseAccum s, BitVec.toNat_add .., BitVec.toNat_add .., BitVec.toNat_add .., BitVec.toNat_add .., rfl,
    fun last => if_pos last, fun more => if_neg more, rfl, ⟨rfl, rfl, rfl, rfl⟩, rfl, rfl, rfl, rfl, rfl, rfl, fun _ => rfl⟩

theorem exec_phaseFinal (s : State) : exec .phaseFinal s = .next s.final := rfl

/-- The lower-numbered word is the low half of a digest register (R176). -/
theorem toNat_append_words (hi lo : Word) : (hi ++ lo : DWord).toNat = lo.toNat + 2 ^ 32 * hi.toNat := by
  rw [BitVec.toNat_append, ← Nat.shiftLeft_add_eq_or_of_lt lo.isLt, Nat.shiftLeft_eq]
  omega

/-- Settles O45: FINAL packs two words into each register, and finishes STATUS. -/
theorem finalCompletes : Obligations.FinalCompletes := fun s =>
  ⟨s.final, exec_phaseFinal s, toNat_append_words s.h.b s.h.a, toNat_append_words s.h.d s.h.c, rfl, rfl, rfl, rfl, rfl, rfl,
    rfl, rfl, rfl, rfl, rfl, rfl, rfl, rfl, rfl, fun _ => rfl⟩

end Sys2Proof.Machine
end

