-- ==== Sys2Proof/Proofs/DigestInProgress.lean ====
section
/-! PROOF. The digest in progress (spec/43_sequencer.md R180): it goes on over every turn that leaves what it is made of,
and each step of the sequencer takes it one step further, up to FINAL, which gives its result (R179). -/

namespace Sys2Proof.Machine

/-! ### Turns that leave the digest in progress -/

/-- From `s` to `t` nothing changes of what the digest in progress is made of: the parameters, BUSY, the sequencer, the
datapath, and each byte of the message. -/
structure State.SameDigest (s t : State) : Prop where
  params : t.params = s.params
  busy : t.status.busy = s.status.busy
  sequencer : s.keepsSequencer t
  datapath : s.keepsDatapath t
  bytes : ∀ i, i < s.llen.toNat → t.msgByte i = s.msgByte i

section Turns
variable {s t : State} {msg : List Byte}

theorem State.Digesting.of_same (hs : s.Digesting msg) (same : s.SameDigest t) : t.Digesting msg := by
  obtain ⟨params, busy, ⟨phase, j, blk, nblk, -, llen⟩, ⟨h, w, m⟩, bytes⟩ := same
  have load : t.nextLoad = s.nextLoad := by simp only [State.nextLoad, phase, blk]
  refine ⟨busy.trans hs.busy, (congrArg _ llen).trans hs.length, nblk.trans hs.count, fun i hi due => ?_, ?_⟩
  · rw [bytes i (by rwa [hs.length])]
    exact hs.bytes i hi (load ▸ due)
  · simpa only [State.stageOf, params, phase, j, blk, nblk, h, w, m] using hs.stage

theorem State.SameDigest.refl (s : State) : s.SameDigest s :=
  ⟨rfl, rfl, ⟨rfl, rfl, rfl, rfl, rfl, rfl⟩, ⟨rfl, rfl, rfl⟩, fun _ _ => rfl⟩

theorem State.sameDigest_turnsLeft (s : State) (rest : List Turn) : s.SameDigest (s.turnsLeft rest) :=
  ⟨rfl, rfl, ⟨rfl, rfl, rfl, rfl, rfl, rfl⟩, ⟨rfl, rfl, rfl⟩, fun _ _ => rfl⟩

theorem State.sameDigest_overrun (s : State) : s.SameDigest s.overrun :=
  ⟨rfl, rfl, ⟨rfl, rfl, rfl, rfl, rfl, rfl⟩, ⟨rfl, rfl, rfl⟩, fun _ _ => rfl⟩

/-- The digest has latched what it takes from the host's registers (R26). -/
theorem State.sameDigest_withHostRegisters (s : State) (a l r : DWord) : s.SameDigest (s.withHostRegisters a l r) :=
  ⟨rfl, rfl, ⟨rfl, rfl, rfl, rfl, rfl, rfl⟩, ⟨rfl, rfl, rfl⟩, fun _ _ => rfl⟩

/-- A read of input memory depends on the byte there and ADDR_W alone (R63). -/
theorem State.memRead_congr_memByte {a : Nat} (params : t.params = s.params) (byte : t.memByte a = s.memByte a) :
    t.memRead a = s.memRead a := by
  unfold State.memRead
  rw [params, byte]

/-- Input memory that reads the same in the place of the message leaves the digest (R283). -/
theorem State.sameDigest_withMemory {mem : List Host.Cell}
    (same : ∀ a, s.lsrc.toNat ≤ a → a < s.lsrc.toNat + s.llen.toNat → Memory.read mem a = s.memByte a) :
    s.SameDigest { s with mem := mem } := by
  refine ⟨rfl, rfl, ⟨rfl, rfl, rfl, rfl, rfl, rfl⟩, ⟨rfl, rfl, rfl⟩, fun i hi => ?_⟩
  have byte : Memory.read mem (s.msgAddr i) = s.memByte (s.msgAddr i) :=
    same _ (Nat.le_add_right ..) (Nat.add_lt_add_left hi _)
  exact State.msgByte_congr_reads (t := { s with mem := mem }) rfl rfl (State.memRead_congr_memByte rfl byte)

/-- The host writes outside the message (R283). -/
theorem State.sameDigest_place {a : Nat} (v : Byte) (outside : a < s.lsrc.toNat ∨ s.lsrc.toNat + s.llen.toNat ≤ a) :
    s.SameDigest (s.place a v) :=
  State.sameDigest_withMemory fun _ lo hi => Memory.read_write_other s.mem v (by omega)

/-- Memory stops admitting a read outside the message (R283). -/
theorem State.sameDigest_withdraw {a : Nat} (outside : a < s.lsrc.toNat ∨ s.lsrc.toNat + s.llen.toNat ≤ a) :
    s.SameDigest (s.withdraw a) :=
  State.sameDigest_withMemory fun _ lo hi => Memory.read_erase_other s.mem (by omega)

/-- Keeping a byte that its address reads as leaves every message byte (R64). -/
theorem State.sameDigest_take {k : Nat} {b : Byte} (untaken : Memory.read s.taken k = none)
    (read : s.memRead (s.msgAddr k) = .ok b) : s.SameDigest (s.take k b) := by
  refine ⟨rfl, rfl, ⟨rfl, rfl, rfl, rfl, rfl, rfl⟩, ⟨rfl, rfl, rfl⟩, fun i _ => ?_⟩
  by_cases hi : i = k
  · subst hi
    rw [State.msgByte_of_untaken untaken, read]
    exact State.msgByte_of_taken (Memory.read_write_same s.taken i b)
  · exact State.msgByte_congr_reads (t := s.take k b) (Memory.read_write_other s.taken b hi) rfl rfl

/-- A byte whose read is due is a byte of the message still to be loaded, so it is readable (R64). -/
theorem State.Digesting.earlyRead (hs : s.Digesting msg) (k : Nat) :
    ∃ t, Machine.earlyRead k s = .next t ∧ s.SameDigest t := by
  cases due : s.readDue k with
  | false => exact ⟨s, earlyRead_of_not_due due, .refl s⟩
  | true =>
    obtain ⟨-, inMsg, toCome, untaken⟩ := (s.readDue_iff k).1 due
    have read : s.memRead (s.msgAddr k) = .ok (msg.getD k 0#8) := by
      rw [← State.msgByte_of_untaken untaken]
      exact hs.bytes k (by rwa [← hs.length]) toCome
    exact ⟨_, earlyRead_of_readable due read, State.sameDigest_take untaken read⟩

theorem decodeRead_mem_registerReads (idx : BitVec 3) (d : DWord) : decodeRead idx d ∈ registerReads d := by
  rcases index_cases idx with rfl | rfl | rfl | rfl | rfl | rfl | rfl | rfl <;> simp [decodeRead]

theorem exec_wrCmd_of_busy {v : DWord} (busy : s.status.busy = true) (noReset : v ≠ 2#64) :
    exec (.wrCmd v) s = .next s.overrun := by
  simp [exec, execWrCmd, busy, noReset]

/-- A write while busy is lost, is ignored, or sets a register that the digest has latched (R26, R214, R255). -/
theorem exec_decodeWrite_of_busy {idx : BitVec 3} {d : DWord} (busy : s.status.busy = true)
    (noReset : decodeWrite idx d ≠ .wrCmd 2#64) : ∃ t, exec (decodeWrite idx d) s = .next t ∧ s.SameDigest t := by
  rcases index_cases idx with rfl | rfl | rfl | rfl | rfl | rfl | rfl | rfl
  · have other : d ≠ 2#64 := fun hd => noReset (congrArg Instr.wrCmd hd)
    exact ⟨s.overrun, exec_wrCmd_of_busy busy other, s.sameDigest_overrun⟩
  · exact ⟨s, rfl, .refl s⟩
  · exact ⟨s.setSrcAddr d, rfl, s.sameDigest_withHostRegisters d s.length s.rdata⟩
  · exact ⟨s.setLength d, rfl, s.sameDigest_withHostRegisters s.srcAddr d s.rdata⟩
  all_goals exact ⟨s, rfl, .refl s⟩

/-- A host transaction while busy, other than SOFT_RESET, leaves the digest (R180, R255). -/
theorem exec_decodeBus_of_busy {word : BusWord} (busy : s.status.busy = true) (noReset : decodeBus word ≠ .wrCmd 2#64) :
    ∃ t, exec (decodeBus word) s = .next t ∧ s.SameDigest t := by
  obtain ⟨c, d, rfl⟩ : ∃ c d, busWord c d = word := ⟨_, _, busWord_eta word⟩
  rw [decodeBus_busWord] at noReset ⊢
  cases we : c.getLsbD 3 with
  | true =>
    rw [we] at noReset
    exact exec_decodeWrite_of_busy busy noReset
  | false =>
    obtain ⟨v, he⟩ := exec_registerRead (decodeRead_mem_registerReads (c.extractLsb' 0 3) d) s
    exact ⟨s.answer v, he, s.sameDigest_withHostRegisters s.srcAddr s.length v⟩

end Turns

/-! ### The steps of the sequencer -/

section Stages
variable {s : State} {msg : List Byte}

/-- A state goes on with the digest where it has reached a stage of it, and the bytes it has still to load are among
those that were to be loaded and are the same. -/
theorem State.Digesting.advance {t : State} (hs : s.Digesting msg) (status : t.status = s.status) (llen : t.llen = s.llen)
    (nblk : t.nblk = s.nblk) (load : s.nextLoad ≤ t.nextLoad)
    (bytes : ∀ i, t.nextLoad ≤ i / 64 → t.msgByte i = s.msgByte i) (stage : t.stageOf msg) : t.Digesting msg where
  busy := status ▸ hs.busy
  length := llen ▸ hs.length
  count := nblk ▸ hs.count
  bytes i hi due := (bytes i due).trans (hs.bytes i hi (load.trans due))
  stage := stage

theorem State.nextLoad_of_load (hph : s.phase = 0b001#3) : s.nextLoad = s.blk := if_pos hph

theorem State.nextLoad_of_not_load (hph : s.phase ≠ 0b001#3) : s.nextLoad = s.blk + 1 := if_neg hph

/-- In LOAD the stream of the block is that of the message (R101). -/
theorem State.Digesting.streamByte (hs : s.Digesting msg) (hph : s.phase = 0b001#3) (k : Nat) :
    s.streamByte (64 * s.blk + k) = .ok (paddedByte s.params.lenMode msg (64 * s.blk + k)) := by
  rcases Nat.lt_or_ge (64 * s.blk + k) msg.length with inMsg | past
  · rw [State.streamByte_message (by rwa [hs.length]), paddedByte, if_pos inMsg]
    exact hs.bytes _ inMsg (by rw [State.nextLoad_of_load hph]; omega)
  · rw [State.streamByte_padding (by rwa [hs.length]), paddedByte, if_neg (by omega), hs.length]

/-- LOAD completes with the block of the padded message (R107, R172). -/
theorem State.Digesting.exec_phaseLoad (hs : s.Digesting msg) (hph : s.phase = 0b001#3) :
    exec .phaseLoad s = .next (s.loadBlock (paddedBlock s.params.lenMode msg s.blk)) := by
  have block : s.streamBytes (64 * s.blk) 64 = .ok (paddedBlock s.params.lenMode msg s.blk) :=
    State.streamBytes_of_forall _ fun k _ => hs.streamByte hph k
  rw [Machine.exec_phaseLoad, execPhaseLoad, block]

/-- After LOAD no round of the block is done, and W holds H (R172). -/
theorem State.Digesting.loadBlock (hs : s.Digesting msg) (hph : s.phase = 0b001#3) (hblk : s.blk < s.nblk)
    (hh : s.h = chain s.params.lenMode msg s.blk) :
    (s.loadBlock (paddedBlock s.params.lenMode msg s.blk)).Digesting msg := by
  refine hs.advance rfl rfl rfl ?_ (fun i later => State.msgByte_loadBlock _ later) (.inr (.inl ⟨rfl, hblk, hh, rfl, rfl⟩))
  rw [State.nextLoad_of_load hph]
  exact Nat.le_succ s.blk

/-- Round j is the next one after rounds 0 to j - 1 (R155). -/
theorem roundAt_rounds (m : Block) (q : Quad) (j : BitVec 6) :
    roundAt j m (rounds m q j.toNat) = rounds m q (j.toNat + 1) := by
  rw [rounds, BitVec.ofNat_toNat, BitVec.setWidth_eq]

theorem toNat_lt_63_of_ne {j : BitVec 6} (h : j ≠ 63#6) : j.toNat < 63 := by
  have : j.toNat ≠ 63 := fun last => h (BitVec.eq_of_toNat_eq last)
  omega

/-- ROUND adds a round, and after the last one all 64 are done (R173). -/
theorem State.Digesting.nextRound (hs : s.Digesting msg) (hph : s.phase = 0b010#3) (hblk : s.blk < s.nblk)
    (hh : s.h = chain s.params.lenMode msg s.blk) (hm : s.m = unpack (paddedBlock s.params.lenMode msg s.blk))
    (hw : s.w = rounds s.m s.h s.j.toNat) : (s.setW (roundAt s.j s.m s.w)).nextRound.Digesting msg := by
  have added : roundAt s.j s.m s.w = rounds s.m s.h (s.j.toNat + 1) := by rw [hw, roundAt_rounds]
  have notLoad : (s.setW (roundAt s.j s.m s.w)).nextRound.phase ≠ 0b001#3 := by
    rw [State.nextRound_phase]
    split <;> simp [hph]
  refine hs.advance (by simp) (by simp) (by simp) ?_ (fun i _ => ?_) ?_
  · rw [State.nextLoad_of_not_load (by simp [hph]), State.nextLoad_of_not_load notLoad, State.nextRound_blk]
    rfl
  · exact State.msgByte_congr (by simp) (by simp) (by simp) (by simp) i
  · by_cases last : s.j = 63#6
    · simpa [State.stageOf, last, hblk, ← hh, ← hm] using added
    · have below := toNat_lt_63_of_ne last
      simp [State.stageOf, last, hph, hblk, ← hh, ← hm, added, toNat_add_one_of_lt below, -BitVec.toNat_add]

/-- ACCUM ends a block: H is the chaining value after it (R174, R179). -/
theorem State.Digesting.accum (hs : s.Digesting msg) (hph : s.phase = 0b011#3) (hblk : s.blk < s.nblk)
    (hh : s.h = chain s.params.lenMode msg s.blk) (hm : s.m = unpack (paddedBlock s.params.lenMode msg s.blk))
    (hw : s.w = rounds s.m s.h 64) : s.accum.Digesting msg := by
  have block : addQuad s.h s.w = chain s.params.lenMode msg (s.blk + 1) := by rw [hw, hm, hh]; rfl
  refine hs.advance rfl rfl rfl ?_ (fun i _ => State.msgByte_congr rfl rfl rfl rfl i) ?_
  · rw [State.nextLoad_of_not_load (by simp [hph]), State.nextLoad, State.accum_blk]
    split <;> omega
  · by_cases last : s.blk + 1 = s.nblk
    · exact .inr (.inr (.inr ⟨if_pos last, last, last ▸ block⟩))
    · exact .inl ⟨if_neg last, Nat.lt_of_le_of_ne hblk last, block⟩

/-- FINAL gives the digest (R176, R179). -/
theorem State.Digesting.final (hs : s.Digesting msg) (hh : s.h = chain s.params.lenMode msg s.nblk) :
    s.final.digestLo = digestOfLo s.params.lenMode msg ∧ s.final.digestHi = digestOfHi s.params.lenMode msg := by
  have core : s.h = md5core s.params.lenMode msg := by rw [hh, hs.count, md5core]
  exact ⟨congrArg packLo core, congrArg packHi core⟩

end Stages

/-- How many steps the sequencer has taken since START: 66 in each block done, and in a block LOAD, then its rounds, and
ACCUM last (R177). -/
def State.stepsDone (s : State) : Nat :=
  66 * s.blk + if s.phase = 0b010#3 then 1 + s.j.toNat else if s.phase = 0b011#3 then 65 else 0

section Engine
variable {s : State} {msg : List Byte}

theorem State.stepsDone_of_load (hph : s.phase = 0b001#3) : s.stepsDone = 66 * s.blk := by
  simp [State.stepsDone, hph]

theorem State.stepsDone_of_round (hph : s.phase = 0b010#3) : s.stepsDone = 66 * s.blk + (1 + s.j.toNat) := by
  simp [State.stepsDone, hph]

theorem State.stepsDone_of_accum (hph : s.phase = 0b011#3) : s.stepsDone = 66 * s.blk + 65 := by
  simp [State.stepsDone, hph]

theorem State.stepsDone_of_final (hph : s.phase = 0b100#3) : s.stepsDone = 66 * s.blk := by
  simp [State.stepsDone, hph]

/-- Round 63 is followed by ACCUM, and any other round by the next one (R173). -/
theorem State.stepsDone_nextRound (hph : s.phase = 0b010#3) : s.nextRound.stepsDone = s.stepsDone + 1 := by
  rw [State.stepsDone_of_round hph]
  by_cases last : s.j = 63#6
  · rw [State.stepsDone_of_accum (by simp [last]), State.nextRound_blk, last]
    rfl
  · have below : s.j.toNat < 63 := toNat_lt_63_of_ne last
    rw [State.stepsDone_of_round (by simp [last, hph]), State.nextRound_blk, State.nextRound_j, if_neg last,
      toNat_add_one_of_lt below]
    omega

/-- After ACCUM the sequencer is at the start of a block, or past the last one (R174). -/
theorem State.stepsDone_accum (hph : s.phase = 0b011#3) : s.accum.stepsDone = s.stepsDone + 1 := by
  rw [State.stepsDone_of_accum hph]
  by_cases last : s.blk + 1 = s.nblk
  · exact State.stepsDone_of_final (s := s.accum) (if_pos last)
  · exact State.stepsDone_of_load (s := s.accum) (if_neg last)

/-- The engine's step completes: it takes the digest one step further, or it is FINAL's and gives the digest. -/
theorem State.Digesting.engine (hs : s.Digesting msg) : ∃ i t, decodePhase s.phase = .ok i ∧ exec i s = .next t ∧
    ((t.Digesting msg ∧ t.stepsDone = s.stepsDone + 1) ∨
      (s.phase = 0b100#3 ∧ t.phase = 0b000#3 ∧ t.status.busy = false ∧ t.status.done = true ∧
        t.digestLo = digestOfLo s.params.lenMode msg ∧ t.digestHi = digestOfHi s.params.lenMode msg)) := by
  rcases hs.stage with ⟨hph, hblk, hh⟩ | ⟨hph, hblk, hh, hm, hw⟩ | ⟨hph, hblk, hh, hm, hw⟩ | ⟨hph, -, hh⟩
  · refine ⟨.phaseLoad, _, by rw [hph]; rfl, hs.exec_phaseLoad hph, .inl ⟨hs.loadBlock hph hblk hh, ?_⟩⟩
    rw [State.stepsDone_of_load hph]
    exact State.stepsDone_of_round (s := s.loadBlock _) rfl
  · exact ⟨.phaseRound, _, by rw [hph]; rfl, exec_phaseRound s,
      .inl ⟨hs.nextRound hph hblk hh hm hw, State.stepsDone_nextRound (s := s.setW _) hph⟩⟩
  · exact ⟨.phaseAccum, _, by rw [hph]; rfl, exec_phaseAccum s,
      .inl ⟨hs.accum hph hblk hh hm hw, State.stepsDone_accum hph⟩⟩
  · obtain ⟨lo, hi⟩ := hs.final hh
    exact ⟨.phaseFinal, _, by rw [hph]; rfl, exec_phaseFinal s, .inr ⟨hph, rfl, rfl, rfl, lo, hi⟩⟩

end Engine

/-- Settles O58: the engine's turn is a step of the sequencer, and every other turn leaves what the digest is made of. -/
theorem stepAdvancesDigest : Obligations.StepAdvancesDigest := by
  intro s msg hs leaves
  cases ho : s.order with
  | nil =>
    obtain ⟨i, t, decodes, he, course⟩ := hs.engine
    exact ⟨t, (step_of_no_turn ho decodes).trans he, (exec_keepsOutside he).1, course.imp_left And.left⟩
  | cons turn rest =>
    have hr : (s.turnsLeft rest).Digesting msg := hs.of_same (s.sameDigest_turnsLeft rest)
    have allowed : (s.turnsLeft rest).leavesDigest turn := leaves turn rest ho
    cases turn with
    | engine =>
      obtain ⟨i, t, decodes, he, course⟩ := hr.engine
      exact ⟨t, (step_of_engine ho decodes).trans he, (exec_keepsOutside he).1, course.imp_left And.left⟩
    | host word =>
      obtain ⟨t, he, same⟩ := exec_decodeBus_of_busy hr.busy allowed
      exact ⟨t, (step_of_host ho).trans he, same.params, .inl (hr.of_same same)⟩
    | read k =>
      obtain ⟨t, he, same⟩ := hr.earlyRead k
      exact ⟨t, (step_of_read ho).trans he, same.params, .inl (hr.of_same same)⟩
    | place a v => exact ⟨_, step_of_place ho, rfl, .inl (hr.of_same (State.sameDigest_place v allowed))⟩
    | withdraw a => exact ⟨_, step_of_withdraw ho, rfl, .inl (hr.of_same (State.sameDigest_withdraw allowed))⟩
    | reset => exact allowed.elim

end Sys2Proof.Machine
end

