-- ==== Sys2Proof/Proofs/DigestRun.lean ====
section
/-! PROOF. A digest that the engine computes alone takes 66 steps a block and one for FINAL (spec/43_sequencer.md R177),
and leaves the digest of its message and the fold of it (R179, R201). -/

namespace Sys2Proof.Machine

section Run
variable {s t : State} {msg : List Byte}

/-- Throughout a digest NBLK is the number of blocks of its message (R25). -/
theorem State.Digesting.nblk_eq (hs : s.Digesting msg) (ht : t.Digesting msg) : t.nblk = s.nblk :=
  ht.count.trans hs.count.symm

/-- FINAL comes after 66 steps for each block (R177). -/
theorem State.Digesting.stepsDone_of_final (hs : s.Digesting msg) (hph : s.phase = 0b100#3) :
    s.stepsDone = 66 * s.nblk := by
  rcases hs.stage with ⟨other, -⟩ | ⟨other, -⟩ | ⟨other, -⟩ | ⟨-, hblk, -⟩
  case inr.inr.inr => rw [State.stepsDone_of_final hph, hblk]
  all_goals simp [hph] at other

/-- While busy no more than 66 steps for each block are done (R177). -/
theorem State.Digesting.stepsDone_le (hs : s.Digesting msg) : s.stepsDone ≤ 66 * s.nblk := by
  rcases hs.stage with ⟨hph, hblk, -⟩ | ⟨hph, hblk, -⟩ | ⟨hph, hblk, -⟩ | ⟨hph, -⟩
  · rw [State.stepsDone_of_load hph]; omega
  · rw [State.stepsDone_of_round hph]; have := s.j.isLt; omega
  · rw [State.stepsDone_of_accum hph]; omega
  · exact Nat.le_of_eq (hs.stepsDone_of_final hph)

/-- With the engine moving alone, up to FINAL each step of a run is a step of the digest (R177). -/
theorem State.Digesting.run (hs : s.Digesting msg) (alone : s.order = []) {n : Nat}
    (room : s.stepsDone + n ≤ 66 * s.nblk) : ∃ u, (∀ k, Sys2Proof.core.run (n + k) s = Sys2Proof.core.run k u) ∧
      u.Digesting msg ∧ u.params = s.params ∧ u.order = [] ∧ u.stepsDone = s.stepsDone + n := by
  induction n generalizing s with
  | zero => exact ⟨s, fun k => by rw [Nat.zero_add], hs, rfl, alone, rfl⟩
  | succ n ih =>
    obtain ⟨i, t, decodes, he, ⟨ht, more⟩ | ⟨hph, -⟩⟩ := hs.engine
    · obtain ⟨params, -, order⟩ := exec_keepsOutside he
      have nblk := hs.nblk_eq ht
      obtain ⟨u, run, hu, uparams, uorder, done⟩ := ih ht (order.trans alone) (by omega)
      refine ⟨u, fun k => ?_, hu, uparams.trans params, uorder, by omega⟩
      rw [Nat.add_right_comm, core_run_succ ((step_of_no_turn alone decodes).trans he), run]
    · have done := hs.stepsDone_of_final hph
      omega

end Run

/-- A read of DIGEST64 gives the fold of the digest that the registers hold (R201, R224). -/
theorem exec_rdDigest64_of_digest {t : State} {mode : LenMode} {msg : List Byte} (lo : t.digestLo = digestOfLo mode msg)
    (hi : t.digestHi = digestOfHi mode msg) (d : DWord) :
    exec (.rdDigest64 d) t = .next { t with rdata := digest64Of mode msg } := by
  rw [digest64Of, ← lo, ← hi]
  rfl

/-- Settles O59: a run of 66 NBLK steps is still in the digest, with no step of it left but FINAL. -/
theorem digestTakesExactSteps : Obligations.DigestTakesExactSteps := by
  intro s msg d hs hph first alone
  have start : s.stepsDone = 0 := by rw [State.stepsDone_of_load hph, first]
  refine ⟨fun k hk => ?_, ?_⟩
  · obtain ⟨u, run, hu, -⟩ := hs.run alone (n := k) (by omega)
    exact ⟨u, run 0, hu.busy⟩
  · obtain ⟨u, run, hu, params, uorder, done⟩ := hs.run alone (n := 66 * s.nblk) (by omega)
    obtain ⟨i, t, decodes, he, ⟨ht, more⟩ | ⟨-, -, idle, finished, lo, hi⟩⟩ := hu.engine
    · have nblk := hs.nblk_eq ht
      have bound := ht.stepsDone_le
      omega
    · rw [params] at lo hi
      refine ⟨t, ?_, idle, finished, lo, hi, exec_rdDigest64_of_digest lo hi d⟩
      rw [run, core_run_succ ((step_of_no_turn uorder decodes).trans he), core_run_zero]

end Sys2Proof.Machine
end

