-- ==== Sys2Proof/Proofs/FoldRead.lean ====
section
/-! PROOF. A read of DIGEST64 returns the fold of the two digest registers (spec/44_fold.md R200,
spec/45_host_interface.md R224). -/

namespace Sys2Proof.Machine

/-- Equal halves cancel in the fold (R200). -/
@[simp] theorem fold_self (v : DWord) : fold v v = 0#64 := BitVec.xor_self

theorem exec_rdDigest64 (d : DWord) (s : State) :
    exec (.rdDigest64 d) s = .next (s.answer (fold s.digestLo s.digestHi)) := rfl

theorem exec_rdDigest64_of_equal_halves {s : State} (halves : s.digestLo = s.digestHi) (d : DWord) :
    exec (.rdDigest64 d) s = .next (s.answer 0#64) := by
  rw [exec_rdDigest64, halves, fold_self]

/-- Settles O13: the read answers with the fold, and reset is a state of equal halves. -/
theorem foldReadCompletes : Obligations.FoldReadCompletes := fun s d =>
  have reset_halves : State.reset.digestLo = State.reset.digestHi := rfl
  ⟨exec_rdDigest64 d s, fun halves => exec_rdDigest64_of_equal_halves halves d,
    exec_rdDigest64_of_equal_halves reset_halves d⟩

end Sys2Proof.Machine
end

