-- ==== Sys2Proof/Proofs/RegisterReads.lean ====
section
/-! PROOF. Which value each register read puts on the read-data lines (spec/45_host_interface.md R212 to R226); DIGEST64
is in FoldRead. -/

namespace Sys2Proof.Machine

section Rules

variable (d : DWord) (s : State)

theorem exec_rdCmd : exec (.rdCmd d) s = .next (s.answer 0#64) := rfl
theorem exec_rdStatus : exec (.rdStatus d) s = .next (s.answer s.status.word) := rfl
theorem exec_rdSrcAddr : exec (.rdSrcAddr d) s = .next (s.answer s.srcAddr) := rfl
theorem exec_rdLength : exec (.rdLength d) s = .next (s.answer s.length) := rfl
theorem exec_rdDigestLo : exec (.rdDigestLo d) s = .next (s.answer s.digestLo) := rfl
theorem exec_rdDigestHi : exec (.rdDigestHi d) s = .next (s.answer s.digestHi) := rfl
theorem exec_rdCaps : exec (.rdCaps d) s = .next (s.answer (capsWord s.params)) := rfl

end Rules

/-- Settles O11: each of the five reads answers with its register, and CMD holds no value. -/
theorem plainReadsComplete : Obligations.PlainReadsComplete := fun s d =>
  ⟨exec_rdCmd d s, exec_rdSrcAddr d s, exec_rdLength d s, exec_rdDigestLo d s, exec_rdDigestHi d s⟩

/-! ### STATUS (R213) -/

/-- Settles O12: the read answers with the word of STATUS, whose fields have their places. -/
theorem statusReadCompletes : Obligations.StatusReadCompletes := fun s d =>
  ⟨_, exec_rdStatus d s, s.status.word_toNat⟩

/-- While busy only OVERRUN is free; while idle ERR and DONE exclude each other, and OVERRUN stands with one of them. -/
theorem State.StatusInv.word_mem {s : State} (h : s.StatusInv) :
    s.status.word ∈ [0x0#64, 0x1#64, 0x2#64, 0x14#64, 0x24#64, 0x9#64, 0xA#64, 0x1C#64, 0x2C#64] := by
  obtain ⟨-, excl, noErr, code, doneNoErr, lost⟩ := h
  rcases hst : s.status with ⟨busy, done, err, overrun, errCode⟩
  simp only [hst] at excl noErr code doneNoErr lost
  cases busy with
  | true =>
    obtain ⟨rfl, rfl⟩ := excl rfl
    obtain rfl := noErr rfl
    cases overrun <;> decide
  | false =>
    cases err with
    | true =>
      obtain rfl : done = false := by simpa using doneNoErr
      rcases code rfl with rfl | rfl <;> cases overrun <;> decide
    | false =>
      obtain rfl := noErr rfl
      cases done with
      | true => cases overrun <;> decide
      | false =>
        obtain rfl : overrun = false := by simpa using lost
        decide

/-- Settles O55: the read answers with the word of STATUS, whose fields obey their invariant. -/
theorem statusValues : Obligations.StatusValues := fun s d ⟨hst, _⟩ => ⟨_, exec_rdStatus d s, hst.word_mem⟩

/-! ### CAPS (R226) -/

/-- The high part of a concatenation counts in units of the low part's range. -/
theorem toNat_append_eq_add {m n : Nat} (x : BitVec m) (y : BitVec n) : (x ++ y).toNat = 2 ^ n * x.toNat + y.toNat := by
  rw [BitVec.toNat_append, ← Nat.shiftLeft_add_eq_or_of_lt y.isLt, Nat.shiftLeft_eq, Nat.mul_comm]

theorem lenModeBit_eq (mode : LenMode) : lenModeBit mode = decide (mode = .low32) := by cases mode <;> rfl

/-- The word of CAPS by the places of its fields: ADDR_W is at most 64, so its 8 bits hold it (R12, R38). -/
theorem capsWord_toNat {p : Params} (wf : p.wf) :
    (capsWord p).toNat = (decide (p.lenMode = .low32)).toNat + 2 * p.strict.toNat + 256 * p.addrW := by
  obtain ⟨-, width⟩ := wf
  have held : p.addrW % 2 ^ 8 = p.addrW := Nat.mod_eq_of_lt (by omega)
  simp only [capsWord, toNat_append_eq_add, BitVec.toNat_ofNat, BitVec.toNat_ofBool, held, lenModeBit_eq]
  omega

/-- Settles O14: the read answers with the word of the parameters, which every operation leaves. -/
theorem capsReadCompletes : Obligations.CapsReadCompletes := by
  refine ⟨fun s d wf => ⟨_, exec_rdCaps d s, capsWord_toNat wf⟩, fun s d defaults => ?_, fun i s t h => ?_⟩
  · have word : capsWord s.params = 0x4000#64 := by rw [defaults]; rfl
    rw [exec_rdCaps, word]
    rfl
  · obtain ⟨params, -⟩ := exec_keepsOutside h
    exact params

end Sys2Proof.Machine
end

