-- ==== Sys2Proof/Proofs/RegisterWrites.lean ====
section
/-! PROOF. Writes to the registers that hold an operand of DIGEST, and to the read-only ones
(spec/45_host_interface.md R214 to R219). -/

namespace Sys2Proof.Machine

/-- Settles O16: the meaning of each of the five writes hands its state back. -/
theorem readOnlyWritesComplete : Obligations.ReadOnlyWritesComplete := fun _ _ => ⟨rfl, rfl, rfl, rfl, rfl⟩

theorem exec_wrSrcAddr (v : DWord) (s : State) : exec (.wrSrcAddr v) s = .next (s.setSrcAddr v) := rfl

theorem exec_wrLength (v : DWord) (s : State) : exec (.wrLength v) s = .next (s.setLength v) := rfl

/-- Settles O17: the write is the update of SRC_ADDR, which the read answers with. -/
theorem srcAddrWriteCompletes : Obligations.SrcAddrWriteCompletes := fun s v d =>
  ⟨s.setSrcAddr v, exec_wrSrcAddr v s, rfl, exec_rdSrcAddr d _, rfl, rfl, rfl, rfl, ⟨rfl, rfl, rfl, rfl, rfl, rfl⟩,
    ⟨rfl, rfl, rfl⟩, fun _ => rfl⟩

/-- Settles O18: the write is the update of LENGTH, which the read answers with. -/
theorem lengthWriteCompletes : Obligations.LengthWriteCompletes := fun s v d =>
  ⟨s.setLength v, exec_wrLength v s, rfl, exec_rdLength d _, rfl, rfl, rfl, rfl, ⟨rfl, rfl, rfl, rfl, rfl, rfl⟩,
    ⟨rfl, rfl, rfl⟩, fun _ => rfl⟩

end Sys2Proof.Machine
end

