-- ==== Sys2Proof/Proofs/Commands.lean ====
section
/-! PROOF. A write of CMD is the command that its value decodes to (spec/45_host_interface.md R211), so each command is
settled once for both forms; and every host transaction answers (R210), but for the launch that R62 refuses. -/

namespace Sys2Proof.Machine

/-! ### The four values of CMD (R84, R211) -/

/-- A value of CMD is one of the three commands, or a reserved one. -/
theorem decodeCmd_cases (v : DWord) :
    (v = 0x0#64 ∧ decodeCmd v = .nop) ∨ (v = 0x1#64 ∧ decodeCmd v = .digest) ∨
    (v = 0x2#64 ∧ decodeCmd v = .softReset) ∨ (reservedValue v = true ∧ decodeCmd v = .reservedCmd v) := by
  by_cases h0 : v = 0x0#64
  · exact .inl ⟨h0, by rw [h0]; rfl⟩
  by_cases h1 : v = 0x1#64
  · exact .inr (.inl ⟨h1, by rw [h1]; rfl⟩)
  by_cases h2 : v = 0x2#64
  · exact .inr (.inr (.inl ⟨h2, by rw [h2]; rfl⟩))
  have reserved := (reservedValue_iff v).2 ⟨h0, h1, h2⟩
  exact .inr (.inr (.inr ⟨reserved, decodeCmd_reserved reserved⟩))

theorem exec_wrCmd_nop (s : State) : exec (.wrCmd 0x0#64) s = exec .nop s := by
  cases busy : s.status.busy <;> simp [exec, execWrCmd, execNop, busy]

theorem exec_wrCmd_digest (s : State) : exec (.wrCmd 0x1#64) s = exec .digest s := by
  cases busy : s.status.busy <;> simp [exec, execWrCmd, execDigest, busy]

/-- The value of SOFT_RESET is obeyed busy or not (R232). -/
theorem exec_wrCmd_softReset (s : State) : exec (.wrCmd 0x2#64) s = exec .softReset s := by
  cases busy : s.status.busy <;> simp [exec, execWrCmd, execSoftReset, busy]

theorem exec_wrCmd_reserved {v : DWord} (hv : reservedValue v = true) (s : State) :
    exec (.wrCmd v) s = exec (.reservedCmd v) s := by
  obtain ⟨h0, h1, h2⟩ := (reservedValue_iff v).1 hv
  cases busy : s.status.busy <;> simp [exec, execWrCmd, execReservedCmd, busy, h0, h1, h2]

/-- Settles O19, by the three commands and the reserved values. -/
theorem writeOfCmdIsItsCommand : Obligations.WriteOfCmdIsItsCommand := by
  intro v s
  rcases decodeCmd_cases v with ⟨rfl, he⟩ | ⟨rfl, he⟩ | ⟨rfl, he⟩ | ⟨reserved, he⟩ <;> rw [he]
  · exact exec_wrCmd_nop s
  · exact exec_wrCmd_digest s
  · exact exec_wrCmd_softReset s
  · exact exec_wrCmd_reserved reserved s

/-- A command and the write of its value do the same (R211). -/
theorem exec_command_or_write {c i : Instr} {v : DWord} (hc : decodeCmd v = c) (hi : i ∈ [c, .wrCmd v]) (s : State) :
    exec i s = exec c s := by
  simp only [List.mem_cons, List.not_mem_nil, or_false] at hi
  rcases hi with rfl | rfl
  · rfl
  · rw [writeOfCmdIsItsCommand, hc]

/-! ### NOP (R230) -/

theorem exec_nop_of_idle {s : State} (idle : s.status.busy = false) : exec .nop s = .next s := by
  simp [exec, execNop, idle]

theorem exec_nop_of_busy {s : State} (busy : s.status.busy = true) : exec .nop s = .next s.overrun := by
  simp [exec, execNop, busy]

/-- Settles O21: both forms are NOP, which waits or is an overrun. -/
theorem nopCompletes : Obligations.NopCompletes := by
  intro s i hi
  have decodes : decodeCmd 0x0#64 = .nop := rfl
  rw [exec_command_or_write decodes hi]
  exact ⟨exec_nop_of_idle, exec_nop_of_busy⟩

/-! ### SOFT_RESET (R232) -/

theorem exec_softReset (s : State) : exec .softReset s = .next s.resetAction := rfl

/-- Settles O27: both forms are the reset action, which leaves equal digest halves to fold. -/
theorem softResetCompletes : Obligations.SoftResetCompletes := by
  intro s d i hi
  have decodes : decodeCmd 0x2#64 = .softReset := rfl
  rw [exec_command_or_write decodes hi]
  exact ⟨s.resetAction, exec_softReset s, rfl, rfl, rfl, rfl, rfl, rfl, rfl, exec_rdDigest64_of_equal_halves rfl d,
    fun _ => rfl⟩

/-! ### Every transaction answers (R210) -/

/-- A DIGEST answers a next state, or it is the launch that R62 refuses. -/
theorem exec_digest_answers (s : State) :
    (∃ t, exec .digest s = .next t) ∨
    (s.status.busy = false ∧ s.sideEffects = true ∧
      exec .digest s = .refused (.sideEffectInput s.srcAddr.toNat s.length.toNat)) := by
  cases busy : s.status.busy with
  | true => exact .inl ⟨s.overrun, by simp [exec, execDigest, busy]⟩
  | false =>
    rw [exec_digest_of_idle busy (.head _)]
    rcases s.digestIdle_cases with ⟨-, rejected⟩ | ⟨-, launched⟩
    · exact .inl ⟨_, rejected⟩
    · rw [launched]
      rcases s.launch_cases with ⟨-, started⟩ | ⟨meets, refused⟩
      · exact .inl ⟨_, started⟩
      · exact .inr ⟨rfl, meets, refused⟩

theorem exec_nop_answers (s : State) : ∃ t, exec .nop s = .next t := by
  simp only [exec, execNop]
  split <;> exact ⟨_, rfl⟩

theorem exec_reservedCmd_answers (v : DWord) (s : State) : ∃ t, exec (.reservedCmd v) s = .next t := by
  simp only [exec, execReservedCmd]
  split <;> exact ⟨_, rfl⟩

/-- A write of CMD answers a next state, or it is a DIGEST whose launch R62 refuses. -/
theorem exec_wrCmd_answers (v : DWord) (s : State) :
    (∃ t, exec (.wrCmd v) s = .next t) ∨
    (v = 0x1#64 ∧ s.status.busy = false ∧ s.sideEffects = true ∧
      exec (.wrCmd v) s = .refused (.sideEffectInput s.srcAddr.toNat s.length.toNat)) := by
  rw [writeOfCmdIsItsCommand v s]
  rcases decodeCmd_cases v with ⟨-, he⟩ | ⟨hv, he⟩ | ⟨-, he⟩ | ⟨-, he⟩ <;> rw [he]
  · exact .inl (exec_nop_answers s)
  · exact (exec_digest_answers s).imp_right fun refused => ⟨hv, refused⟩
  · exact .inl ⟨_, exec_softReset s⟩
  · exact .inl (exec_reservedCmd_answers v s)

/-- The register that IDX names is read, with the data bits kept (R88). -/
theorem decodeRead_mem (idx : BitVec 3) (d : DWord) : decodeRead idx d ∈ registerReads d := by
  rcases index_cases idx with rfl | rfl | rfl | rfl | rfl | rfl | rfl | rfl <;> simp [decodeRead]

/-- A write to a register other than CMD answers a next state. -/
theorem decodeWrite_wrCmd_or_answers (idx : BitVec 3) (d : DWord) :
    decodeWrite idx d = .wrCmd d ∨ ∀ s, ∃ t, exec (decodeWrite idx d) s = .next t := by
  rcases index_cases idx with rfl | rfl | rfl | rfl | rfl | rfl | rfl | rfl
  · exact .inl rfl
  all_goals exact .inr fun _ => ⟨_, rfl⟩

theorem decodeBus_wrCmd_or_answers (word : BusWord) :
    (∃ v, decodeBus word = .wrCmd v) ∨ ∀ s, ∃ t, exec (decodeBus word) s = .next t := by
  simp only [decodeBus]
  split
  · exact (decodeWrite_wrCmd_or_answers _ _).imp_left fun cmd => ⟨_, cmd⟩
  · refine .inr fun s => ?_
    obtain ⟨v, he⟩ := exec_registerRead (decodeRead_mem _ _) s
    exact ⟨_, he⟩

/-- Settles O28: only a write of CMD can fail to answer, and of those only a DIGEST. -/
theorem transactionsAnswer : Obligations.TransactionsAnswer := by
  intro s word
  rcases decodeBus_wrCmd_or_answers word with ⟨v, hw⟩ | answers
  · rw [hw]
    rcases exec_wrCmd_answers v s with next | ⟨rfl, idle, meets, refused⟩
    · exact .inl next
    · exact .inr ⟨rfl, idle, fun free => by simp [State.sideEffects_eq_false.2 free] at meets, refused⟩
  · exact .inl (answers s)

end Sys2Proof.Machine
end

