-- ==== Sys2Proof/Proofs/Exceptions.lean ====
section
/-! PROOF. The three conditions that STATUS reports (spec/60_exceptions.md R250 to R255): the two rejections share the
reject action of R252, and one lemma says what every operation does to ERR_CODE. -/

namespace Sys2Proof.Machine

/-! ### OVERRUN (R255) -/

/-- Settles O22: the command is lost, whichever it is. -/
theorem busyCommandIsOverrun : Obligations.BusyCommandIsOverrun := fun _ _ busy noReset =>
  exec_wrCmd_of_busy busy noReset

/-! ### The reject action (R252) -/

/-- An idle block that rejects reports the condition in STATUS, leaves BUSY and OVERRUN, and changes nothing else. -/
theorem State.reject_reports {s : State} (idle : s.status.busy = false) (code : BitVec 4) :
    (s.reject code).status.err = true ∧ (s.reject code).status.errCode = code ∧ (s.reject code).status.done = false ∧
      (s.reject code).status.busy = false ∧ (s.reject code).status.overrun = s.status.overrun ∧
      s.keepsRegisters (s.reject code) ∧ s.keepsSequencer (s.reject code) ∧ s.keepsDatapath (s.reject code) ∧
      s.keepsMemory (s.reject code) :=
  ⟨rfl, rfl, rfl, idle, rfl, ⟨rfl, rfl, rfl, rfl⟩, ⟨rfl, rfl, rfl, rfl, rfl, rfl⟩, ⟨rfl, rfl, rfl⟩, fun _ => rfl⟩

/-! ### BAD_COMMAND (R251) -/

theorem exec_reservedCmd_of_idle {s : State} (idle : s.status.busy = false) (v : DWord) :
    exec (.reservedCmd v) s = .next (s.reject badCommand) := by
  simp [exec, execReservedCmd, idle]

/-- Settles O23: the value is reserved, and both forms reject it. -/
theorem reservedCommandRejected : Obligations.ReservedCommandRejected := by
  intro s v idle notNop notDigest notReset i hi
  have decodes : decodeCmd v = .reservedCmd v :=
    decodeCmd_reserved ((reservedValue_iff v).2 ⟨notNop, notDigest, notReset⟩)
  rw [exec_command_or_write decodes hi, exec_reservedCmd_of_idle idle]
  exact ⟨_, rfl, s.reject_reports idle badCommand⟩

/-! ### LENGTH_OVERFLOW (R253) -/

/-- The shortest message that is too long has 2^61 bytes in FULL64 and 2^29 in LOW32 (R253). -/
theorem lengthLimit_lt_iff (mode : LenMode) (n : Nat) :
    lengthLimit mode < n ↔ (mode = .full64 → 2 ^ 61 ≤ n) ∧ (mode = .low32 → 2 ^ 29 ≤ n) := by
  cases mode <;> simp [lengthLimit] <;> omega

theorem State.digestIdle_of_overlong {s : State} (strict : s.params.strict = true)
    (overlong : lengthLimit s.params.lenMode < s.length.toNat) : s.digestIdle = .next (s.reject lengthOverflow) :=
  if_pos ⟨strict, overlong⟩

/-- An operation leaves ERR_CODE, clears it, or raises BAD_COMMAND, or it is a DIGEST that is rejected for its length. -/
theorem exec_errCode {i : Instr} {s t : State} (h : exec i s = .next t) :
    t.status.errCode = s.status.errCode ∨ t.status.errCode = 0x0#4 ∨ t.status.errCode = badCommand ∨
    ((i = .digest ∨ i = .wrCmd 1#64) ∧ s.status.busy = false ∧ s.params.strict = true ∧
      lengthLimit s.params.lenMode < s.length.toNat) := by
  rcases exec_next h with rfl | ⟨d, v, -, rfl⟩ | ⟨v, -, rfl⟩ | ⟨v, -, rfl⟩ | ⟨-, rfl⟩ | ⟨-, rfl⟩ |
    ⟨idle, hi, strict, overlong, -⟩ | ⟨-, -, -, rfl⟩ | ⟨-, rfl⟩ | ⟨-, q, rfl⟩ | ⟨-, bytes, -, rfl⟩ | ⟨-, rfl⟩ |
    ⟨-, rfl⟩ | ⟨-, rfl⟩
  iterate 5 · exact .inl (by simp)
  · exact .inr (.inr (.inl rfl))
  · exact .inr (.inr (.inr ⟨hi, idle, strict, overlong⟩))
  iterate 2 · exact .inr (.inl rfl)
  all_goals exact .inl (by simp)

/-- Settles O24: a DIGEST too long for a strict instance is rejected, and nothing else brings ERR_CODE to 0x2. -/
theorem lengthOverflowRejected : Obligations.LengthOverflowRejected := by
  constructor
  · intro s idle strict full low i hi
    have overlong := (lengthLimit_lt_iff _ _).2 ⟨full, low⟩
    rw [exec_digest_of_idle idle hi, State.digestIdle_of_overlong strict overlong]
    exact ⟨_, rfl, s.reject_reports idle lengthOverflow⟩
  · intro i s t h raised fresh
    rcases exec_errCode h with left | cleared | bad | ⟨hi, idle, strict, overlong⟩
    · exact absurd (left.symm.trans raised) fresh
    · exact absurd (cleared.symm.trans raised) (by decide)
    · exact absurd (bad.symm.trans raised) (by decide)
    · exact ⟨hi, idle, strict, (lengthLimit_lt_iff _ _).1 overlong⟩

end Sys2Proof.Machine
end
